-- ==== Sys2Proof/Word.lean ====
section
/-! DEFINITION. The machine's words and its fixed-size groups of like things (00_scope.md section 5 and rule R5):
bytes, 32-bit words, 64-bit addresses, vectors of eight lanes, matrices of eight rows, banks of sixteen vectors.
Nothing here computes SHA-256; it is the shape of the data. -/

namespace Sys2Proof

/-- One byte of the data address space (R40). -/
abbrev Byte := BitVec 8

/-- A data word, the spec's `Word`: 32 bits, unsigned (R5 WORD, 00_scope.md section 5). -/
abbrev Word := BitVec 32

/-- An address or a 64-bit register (R6 AW, R11 to R13). -/
abbrev Addr := BitVec 64

/-- Eight like things: the lanes of a vector, the rows of a matrix, the eight stream pointers (R5 LANES = 8).
Eight named fields, so that a value is plain data that the kernel reads without computing an index. -/
structure Oct (α : Type) where
  x0 : α
  x1 : α
  x2 : α
  x3 : α
  x4 : α
  x5 : α
  x6 : α
  x7 : α
  deriving DecidableEq, Repr, Inhabited

/-- Element `k`, for `k = 0 .. 7`. -/
def Oct.get {α : Type} (v : Oct α) (k : Fin 8) : α :=
  match k.val with
  | 0 => v.x0
  | 1 => v.x1
  | 2 => v.x2
  | 3 => v.x3
  | 4 => v.x4
  | 5 => v.x5
  | 6 => v.x6
  | _ => v.x7

/-- The eight elements `f 0 .. f 7`. -/
def Oct.ofFn {α : Type} (f : Fin 8 → α) : Oct α :=
  ⟨f 0, f 1, f 2, f 3, f 4, f 5, f 6, f 7⟩

/-- `v` with element `k` replaced. -/
def Oct.set {α : Type} (v : Oct α) (k : Fin 8) (x : α) : Oct α :=
  match k.val with
  | 0 => { v with x0 := x }
  | 1 => { v with x1 := x }
  | 2 => { v with x2 := x }
  | 3 => { v with x3 := x }
  | 4 => { v with x4 := x }
  | 5 => { v with x5 := x }
  | 6 => { v with x6 := x }
  | _ => { v with x7 := x }

/-- The elements in ascending index order. -/
def Oct.toList {α : Type} (v : Oct α) : List α :=
  [v.x0, v.x1, v.x2, v.x3, v.x4, v.x5, v.x6, v.x7]

/-- The indices `0 .. 7` in ascending order. -/
def octIndices : List (Fin 8) := [0, 1, 2, 3, 4, 5, 6, 7]

/-- A vector: lane `k` is a 32-bit word (R5 VEC, R43). -/
abbrev Vec := Oct Word

/-- A matrix: row `r` is a vector, `(M.get r).get k` is row `r`, lane `k` (R44). -/
abbrev Mat := Oct Vec

/-- Sixteen vectors in two halves of eight: the load buffer `L[h][k]` (R21) and the schedule window
`w[8h + l]` (R20, R145). -/
structure Bank where
  lo : Mat
  hi : Mat
  deriving DecidableEq, Repr, Inhabited

/-- Half `h`, for `h = 0, 1`. -/
def Bank.half (B : Bank) (h : Fin 2) : Mat :=
  match h.val with
  | 0 => B.lo
  | _ => B.hi

/-- Slot `j`, for `j = 0 .. 15`: vector `j mod 8` of half `j / 8`. -/
def Bank.slot (B : Bank) (j : Fin 16) : Vec :=
  if h : j.val < 8 then B.lo.get ⟨j.val, h⟩ else B.hi.get ⟨j.val - 8, by omega⟩

/-- `B` with slot `j` replaced. -/
def Bank.setSlot (B : Bank) (j : Fin 16) (V : Vec) : Bank :=
  if h : j.val < 8 then { B with lo := B.lo.set ⟨j.val, h⟩ V } else { B with hi := B.hi.set ⟨j.val - 8, by omega⟩ V }

/-- The slots `0 .. 15` in ascending order. -/
def slotIndices : List (Fin 16) := [0, 1, 2, 3, 4, 5, 6, 7, 8, 9, 10, 11, 12, 13, 14, 15]

end Sys2Proof
end

