-- ==== Sys2Proof/Machine/Types.lean ====
section
/-! DEFINITION. The types of the state's parts: the scratch registers, the sequencer, the platform's memory map,
the memory events, the host's register names and transactions. Types only: what is done with them stands in the
other files of Sys2Proof/Machine. -/

namespace Sys2Proof.Machine

/-- What the block is doing (R25, field `phase`). -/
inductive Phase where
  | idle | check | nChunk | tRead | tWrite | cLoad | cTranspose | cCopy | cRound | cFeed | cAdvance
  deriving DecidableEq, Repr, Inhabited

/-- The sequencer, the block's stand-in for a program counter (R25). -/
structure Sequencer where
  phase : Phase
  /-- Index of the current block of a COMPRESS. -/
  blk : Nat
  /-- Round index of a COMPRESS. -/
  i : Nat
  /-- Chunk index of a NORMALIZE. -/
  c : Nat
  deriving DecidableEq, Repr, Inhabited

/-- The vector registers and the local stream pointers (R19 to R24, and the matrices `M`, `N` of R132): scratch
that neither the host nor the next command can read (R29). -/
structure Scratch where
  /-- Working registers `a .. h` (R19). -/
  a : Vec
  b : Vec
  c : Vec
  d : Vec
  e : Vec
  f : Vec
  g : Vec
  h : Vec
  /-- Message schedule window `w[0..15]` (R20). -/
  w : Bank
  /-- Load buffer `L[h][k]` (R21). -/
  L : Bank
  /-- State copy `S[0..7]` (R22). -/
  S : Mat
  /-- Local stream pointers `p[0..7]` (R23). -/
  p : Oct Addr
  /-- Round temporaries (R24). -/
  T1 : Vec
  T2 : Vec
  /-- Transpose intermediates `t[0..7]`, `u[0..7]` (R24, R105, R106). -/
  t : Mat
  u : Mat
  /-- The matrix a TRANSPOSE read, and its transpose (R132). -/
  M : Mat
  N : Mat
  deriving DecidableEq, Repr, Inhabited

/-- `working[0..7] = a, b, c, d, e, f, g, h` (R19). -/
def Scratch.working (x : Scratch) : Mat := ⟨x.a, x.b, x.c, x.d, x.e, x.f, x.g, x.h⟩

/-- Whether a region of the platform's memory map is ordinary memory in the sense of R51, or not (a device's
registers, the block's own register file). -/
inductive RegionKind where
  | ordinary
  | device
  deriving DecidableEq, Repr

/-- One region of the platform's memory map, the addresses `base .. base + size - 1`. The map as a whole stands for
the parameters `Readable` and `Writable` of R53. -/
structure Region where
  base : Nat
  size : Nat
  readable : Bool
  writable : Bool
  kind : RegionKind
  deriving DecidableEq, Repr

/-- One range of a command's footprint, half-open and in unbounded integers: the addresses `start .. start + len - 1`.
Every range of a footprint is read; `writes` says that it is written as well (R47). -/
structure Span where
  start : Nat
  len : Nat
  writes : Bool
  deriving DecidableEq, Repr

/-- The causes of a command's fault (R171). -/
inductive CmdFault where
  /-- The command word is no command (R172). -/
  | illegalCmd
  /-- The length of a NORMALIZE is zero or not a multiple of 8 (R173). -/
  | badLength
  /-- An operand address is not a multiple of 32 (R174). -/
  | misaligned
  /-- A range runs past the top of the address space (R175). -/
  | range
  /-- The memory map does not cover the footprint (R176). -/
  | unmapped
  deriving DecidableEq, Repr

/-- One 32-byte access of the block's memory port, by its address (R50, R62). -/
inductive BusEvent where
  | read (a : Nat)
  | write (a : Nat)
  deriving DecidableEq, Repr

/-- The slots of the register file (R78). -/
inductive Reg where
  | cmd
  | status
  | errinfo
  | base
  | count
  | sp (k : Fin 8)
  /-- A reserved slot of 64 bits: offset `0x28`, `0x30` or `0x38` (index 0, 1, 2). -/
  | reserved (k : Fin 3)
  /-- The reserved upper half of the slot of `CMD` (index 0, offset `0x04`) or of `STATUS` (index 1, `0x0C`). -/
  | upper (k : Fin 2)
  deriving DecidableEq, Repr

/-- What the host, or the outside world, does next (R199): a register transaction (R78), an access of the memory it
owns (R40), the reset event (R190), or a command that a reset cuts short (R192). -/
inductive Transaction where
  /-- `RegWrite(offset, width, value)`. -/
  | regWrite (offset width : Nat) (value : BitVec 64)
  /-- `RegRead(offset, width)`. -/
  | regRead (offset width : Nat)
  /-- The host stores one byte. -/
  | memWrite (a : Addr) (b : Byte)
  /-- The host loads one byte. -/
  | memRead (a : Addr)
  /-- The reset event while the block is idle. -/
  | reset
  /-- The host writes `cw` to `CMD`, and the reset event comes before that command has ended. -/
  | resetDuring (cw : Word)
  deriving DecidableEq, Repr

end Sys2Proof.Machine
end

