-- ==== Sys2Proof/Config.lean ====
section
/-! DEFINITION. What an implementation or a platform fixes, and the free values: what the spec leaves unspecified
is an opaque constant here, so that no proof can use a value of it. -/

namespace Sys2Proof.Config

open Sys2Proof.Machine

/-- The number of addresses: addresses are 64 bits (R6 AW, R40). -/
def addressSpace : Nat := 2 ^ 64

/-- `ALIGN`: the alignment every operand address needs (R6, R46). -/
def alignment : Nat := 32

/-- `REGBASE`, where the host sees the register file (R6, R78). OPEN: no rule of the block reads it; register
transactions name offsets relative to it. -/
opaque regBase : Nat

/-- What a byte of memory that nothing has written reads as. DESIGN CHOICE (notes/assumptions/2.md): the spec gives
memory no contents of its own. -/
def unlistedByte : Byte := 0

/-- The platform's memory map right after reset. DESIGN CHOICE (notes/assumptions/3.md): `Readable` and `Writable` are
OPEN (R6, R53); this one makes the whole address space ordinary memory. Statements quantify over every map. -/
def resetMap : List Region :=
  [{ base := 0, size := addressSpace, readable := true, writable := true, kind := .ordinary }]

/-- The scratch registers after draw `n`: unspecified between commands (R29, R30, R152). -/
opaque freeScratch : Nat → Scratch

/-- `blk`, `i` and `c` after draw `n`: unspecified while the block is idle (R25, R30). -/
opaque freeSequencer : Nat → Sequencer

/-- Operand register `r` (0 `BASE`, 1 `COUNT`, 2 + k `SP[k]`) after the reset event of draw `n`: unspecified (R30). -/
opaque freeRegister : Nat → Nat → BitVec 64

/-- The byte at an address that draw `n` leaves unspecified: after a reset in the middle of a command (R192), or
after a COMPRESS whose State range overlaps a stream range (R52). -/
opaque freeByte : Nat → Nat → Byte

end Sys2Proof.Config
end

