-- ==== Sys2Proof/Machine/State.lean ====
section
/-! DEFINITION. The machine's state (R10), its reset value (R30), and the two closed lists of reasons why a step of
the model may stop. A command's fault (R170) is no such reason: it is an ordinary next state with `STATUS` and
`ERRINFO` written (R178). -/

namespace Sys2Proof.Machine

/-- The data address space (R40), as the list of its listed bytes: addresses strictly rising and below 2^64, no byte
equal to `Config.unlistedByte`, which is what every unlisted address reads as (`Memory.wf` in Machine/Ops.lean). -/
abbrev Memory := List Host.Cell

/-- Everything the spec gives the machine (R10), plus what the model needs to run it: the platform's map, the host's
pending transactions, and a counter of free values. -/
structure State where
  /-- `CMD` (R14). -/
  cmd : Word
  /-- `STATUS` (R15). -/
  status : Word
  /-- `ERRINFO` (R16). -/
  errinfo : BitVec 64
  /-- `BASE` (R11). -/
  base : Addr
  /-- `COUNT` (R12). -/
  count : BitVec 64
  /-- `SP[0..7]` (R13). -/
  sp : Oct Addr
  /-- The vector registers and local pointers (R19 to R24). -/
  scratch : Scratch
  /-- The sequencer (R25). -/
  seq : Sequencer
  /-- The memory of the platform (R27, R40). -/
  mem : Memory
  /-- The platform's memory map: the parameters `Readable` and `Writable` (R53). No step changes it. -/
  map : List Region
  /-- What the host does next, first transaction first (R79, R199). -/
  host : List Transaction
  /-- The values the host's reads have returned, oldest first (R199). -/
  replies : List (BitVec 64)
  /-- The memory accesses of the current, or else the last, command, in order (R62). -/
  events : List BusEvent
  /-- How many times a free value has been drawn (the model's own; see `Config`). -/
  draws : Nat
  deriving DecidableEq, Repr

/-- Why the machine stops with a fault of the model. -/
inductive Fault where
  /-- Raised by a host memory transaction at an address that no region of the platform's map covers: no memory
  exists there (R53). Safe: the model stops, and no command is involved. -/
  | hostNoMemory (a : Addr)
  deriving DecidableEq, Repr

/-- Why the model gives a step no meaning. -/
inductive Refusal where
  /-- An instruction without a meaning yet. No arm of `exec` answers it. Safe. -/
  | notModelled (mnemonic : String)
  /-- Raised by a register transaction of the wrong offset or width, or whose value does not fit the width: a host
  error that a model refuses (R31, 93_implementation_defined.md entry U9). Safe. -/
  | badRegisterAccess (offset width : Nat)
  /-- Raised by a command that passes its checks and whose footprint holds an address that is not ordinary memory: a
  host error that a model refuses (R51, 93_implementation_defined.md entry U10). Safe. -/
  | deviceFootprint
  /-- Raised by a host memory transaction at a device's address: the spec gives no device's behaviour (R51). Safe. -/
  | hostDeviceAccess (a : Addr)
  deriving DecidableEq, Repr

/-- A word of zeros in every lane and row. -/
def zeroMat : Mat :=
  Oct.ofFn fun _ => Oct.ofFn fun _ => 0

/-- The scratch registers right after reset. DESIGN CHOICE (notes/assumptions/1.md): unspecified (R30), named zero. -/
def Scratch.zero : Scratch :=
  { a := zeroMat.x0, b := zeroMat.x0, c := zeroMat.x0, d := zeroMat.x0
    e := zeroMat.x0, f := zeroMat.x0, g := zeroMat.x0, h := zeroMat.x0
    w := ⟨zeroMat, zeroMat⟩, L := ⟨zeroMat, zeroMat⟩, S := zeroMat, p := Oct.ofFn fun _ => 0
    T1 := zeroMat.x0, T2 := zeroMat.x0, t := zeroMat, u := zeroMat, M := zeroMat, N := zeroMat }

/-- The machine right after reset (R30, R190, R191): `CMD`, `STATUS`, `ERRINFO` zero, the sequencer idle. The operand
registers, the scratch registers and `blk`, `i`, `c` are unspecified; they are named zero here (DESIGN CHOICE,
notes/assumptions/1.md). No memory is listed, no transaction is pending. -/
def State.reset : State :=
  { cmd := 0, status := 0, errinfo := 0
    base := 0, count := 0, sp := Oct.ofFn fun _ => 0
    scratch := Scratch.zero, seq := { phase := .idle, blk := 0, i := 0, c := 0 }
    mem := [], map := Config.resetMap, host := [], replies := [], events := [], draws := 0 }

end Sys2Proof.Machine
end

