-- ==== Sys2Proof/Machine/Datapath.lean ====
section
/-! DEFINITION. The datapath primitives of 40_datapath_primitives.md and the two constant tables of R17 and R18: pure
functions of their arguments (R111). -/

namespace Sys2Proof.Machine

/-! ### Scalar operations (R90 to R99). `ADD32` is `+` on `Word` (R90), the bitwise ones are `^^^`, `&&&`, `~~~` (R91). -/

/-- Rotate right by `n`, for `1 ≤ n ≤ 31` (R92). -/
def rotr (x : Word) (n : Nat) : Word := (x >>> n) + (x <<< (32 - n))

/-- Logical shift right by `n` (R93). -/
def shr (x : Word) (n : Nat) : Word := x >>> n

/-- `Ch` (R94). -/
def ch (e f g : Word) : Word := (e &&& f) ^^^ (~~~e &&& g)

/-- `Maj` (R95). -/
def maj (a b c : Word) : Word := (a &&& b) ^^^ (a &&& c) ^^^ (b &&& c)

/-- `Σ0` (R96). -/
def bigSigma0 (a : Word) : Word := rotr a 2 ^^^ rotr a 13 ^^^ rotr a 22

/-- `Σ1` (R97). -/
def bigSigma1 (e : Word) : Word := rotr e 6 ^^^ rotr e 11 ^^^ rotr e 25

/-- `σ0` (R98). -/
def smallSigma0 (x : Word) : Word := rotr x 7 ^^^ rotr x 18 ^^^ shr x 3

/-- `σ1` (R99). -/
def smallSigma1 (x : Word) : Word := rotr x 17 ^^^ rotr x 19 ^^^ shr x 10

/-- `BSWAP32`: the four bytes reversed (R102). -/
def bswap32 (x : Word) : Word :=
  x.extractLsb' 0 8 ++ x.extractLsb' 8 8 ++ x.extractLsb' 16 8 ++ x.extractLsb' 24 8

/-! ### Lane-wise lifting (R100, R101) -/

/-- A scalar function of one word applied in every lane. -/
def lift1 (f : Word → Word) (X : Vec) : Vec := Oct.ofFn fun k => f (X.get k)

/-- A scalar function of two words applied in every lane. -/
def lift2 (f : Word → Word → Word) (X Y : Vec) : Vec := Oct.ofFn fun k => f (X.get k) (Y.get k)

/-- A scalar function of three words applied in every lane. -/
def lift3 (f : Word → Word → Word → Word) (X Y Z : Vec) : Vec := Oct.ofFn fun k => f (X.get k) (Y.get k) (Z.get k)

/-- Lane-wise addition modulo 2^32. -/
def addV (X Y : Vec) : Vec := lift2 (· + ·) X Y

/-- `BCAST`: all eight lanes equal (R101). -/
def bcast (x : Word) : Vec := Oct.ofFn fun _ => x

/-! ### Byte reversal and the byte shuffle (R102, R103) -/

/-- `BSWAPV` (R102). -/
def bswapV (V : Vec) : Vec := lift1 bswap32 V

/-- Byte `j` of a word, `j = 0` the least significant. -/
def wordByte (x : Word) (j : Nat) : Byte := x.extractLsb' (8 * j) 8

/-- `V.b[q]`, for `q = 0 .. 31`: byte `q mod 4` of lane `q / 4` (R103). -/
def vecByte (V : Vec) (q : Nat) : Byte := wordByte (V.get (Fin.ofNat 8 (q / 4))) (q % 4)

/-- The vector with the bytes `b 0 .. b 31`. -/
def vecOfBytes (b : Nat → Byte) : Vec :=
  Oct.ofFn fun k => b (4 * k + 3) ++ b (4 * k + 2) ++ b (4 * k + 1) ++ b (4 * k)

/-- `BSMASK[p]`, for `p = 0 .. 31`: an 8-byte reversal pattern, four times (R18). -/
def bsMask (p : Nat) : Nat := [3, 2, 1, 0, 7, 6, 5, 4].getD (p % 8) 0

/-- `SHUF`: byte `p` of the result is byte `8 (p / 8) + M[p]` of `V` (R103). -/
def shuf (V : Vec) (M : Nat → Nat) : Vec := vecOfBytes fun p => vecByte V (8 * (p / 8) + M p)

/-! ### Transpose (R104) and the three-stage network (R105 to R107) -/

/-- `TRANSPOSE8(M)[i][j] = M[j][i]` (R104). -/
def transpose8 (M : Mat) : Mat := Oct.ofFn fun i => Oct.ofFn fun j => (M.get j).get i

/-- The low interleave of two rows at 32-bit granularity (R105). -/
def interleaveLo (x y : Vec) : Vec := ⟨x.x0, y.x0, x.x1, y.x1, x.x4, y.x4, x.x5, y.x5⟩

/-- The high interleave of two rows at 32-bit granularity (R105). -/
def interleaveHi (x y : Vec) : Vec := ⟨x.x2, y.x2, x.x3, y.x3, x.x6, y.x6, x.x7, y.x7⟩

/-- `lo64` (R106). -/
def lo64 (x y : Vec) : Vec := ⟨x.x0, x.x1, y.x0, y.x1, x.x4, x.x5, y.x4, y.x5⟩

/-- `hi64` (R106). -/
def hi64 (x y : Vec) : Vec := ⟨x.x2, x.x3, y.x2, y.x3, x.x6, x.x7, y.x6, y.x7⟩

/-- The two low 128-bit halves (R107). -/
def loHalves (x y : Vec) : Vec := ⟨x.x0, x.x1, x.x2, x.x3, y.x0, y.x1, y.x2, y.x3⟩

/-- The two high 128-bit halves (R107). -/
def hiHalves (x y : Vec) : Vec := ⟨x.x4, x.x5, x.x6, x.x7, y.x4, y.x5, y.x6, y.x7⟩

/-- Stage 1 of the network, `t[0..7]` (R105). -/
def networkT (M : Mat) : Mat :=
  ⟨interleaveLo M.x0 M.x1, interleaveHi M.x0 M.x1, interleaveLo M.x2 M.x3, interleaveHi M.x2 M.x3,
   interleaveLo M.x4 M.x5, interleaveHi M.x4 M.x5, interleaveLo M.x6 M.x7, interleaveHi M.x6 M.x7⟩

/-- Stage 2 of the network, `u[0..7]` (R106). -/
def networkU (t : Mat) : Mat :=
  ⟨lo64 t.x0 t.x2, hi64 t.x0 t.x2, lo64 t.x1 t.x3, hi64 t.x1 t.x3,
   lo64 t.x4 t.x6, hi64 t.x4 t.x6, lo64 t.x5 t.x7, hi64 t.x5 t.x7⟩

/-- Stage 3 of the network (R107). -/
def networkOut (u : Mat) : Mat :=
  ⟨loHalves u.x0 u.x4, loHalves u.x1 u.x5, loHalves u.x2 u.x6, loHalves u.x3 u.x7,
   hiHalves u.x0 u.x4, hiHalves u.x1 u.x5, hiHalves u.x2 u.x6, hiHalves u.x3 u.x7⟩

/-! ### The round constants (R17) -/

/-- `K[0..63]` in rows of eight. -/
def kRows : List (List Word) :=
  [[0x428a2f98, 0x71374491, 0xb5c0fbcf, 0xe9b5dba5, 0x3956c25b, 0x59f111f1, 0x923f82a4, 0xab1c5ed5],
   [0xd807aa98, 0x12835b01, 0x243185be, 0x550c7dc3, 0x72be5d74, 0x80deb1fe, 0x9bdc06a7, 0xc19bf174],
   [0xe49b69c1, 0xefbe4786, 0x0fc19dc6, 0x240ca1cc, 0x2de92c6f, 0x4a7484aa, 0x5cb0a9dc, 0x76f988da],
   [0x983e5152, 0xa831c66d, 0xb00327c8, 0xbf597fc7, 0xc6e00bf3, 0xd5a79147, 0x06ca6351, 0x14292967],
   [0x27b70a85, 0x2e1b2138, 0x4d2c6dfc, 0x53380d13, 0x650a7354, 0x766a0abb, 0x81c2c92e, 0x92722c85],
   [0xa2bfe8a1, 0xa81a664b, 0xc24b8b70, 0xc76c51a3, 0xd192e819, 0xd6990624, 0xf40e3585, 0x106aa070],
   [0x19a4c116, 0x1e376c08, 0x2748774c, 0x34b0bcb5, 0x391c0cb3, 0x4ed8aa4a, 0x5b9cca4f, 0x682e6ff3],
   [0x748f82ee, 0x78a5636f, 0x84c87814, 0x8cc70208, 0x90befffa, 0xa4506ceb, 0xbef9a3f7, 0xc67178f2]]

/-- `K[i]`, for `i = 0 .. 63` (R17). -/
def roundConstant (i : Nat) : Word := (kRows.getD (i / 8) []).getD (i % 8) 0

end Sys2Proof.Machine
end

