-- ==== Sys2Proof/Machine/Flags.lean ====
section
/-! DEFINITION. The block has no flags, condition codes or predicates (R26). What a command reports besides memory is
`STATUS` (R15); this file is its layout and the two ways a command's end writes it. -/

namespace Sys2Proof.Machine

/-- `STATUS` bit 0, `DONE` (R15). -/
def statusDone (st : Word) : Bool := st.getLsbD 0

/-- `STATUS` bit 1, `ERR` (R15). -/
def statusErr (st : Word) : Bool := st.getLsbD 1

/-- `STATUS` bits 7:4, `CODE` (R15). -/
def statusCode (st : Word) : BitVec 4 := st.extractLsb' 4 4

/-- The code of a fault's cause (R171). -/
def CmdFault.code : CmdFault → Nat
  | .illegalCmd => 1
  | .badLength => 2
  | .misaligned => 3
  | .range => 4
  | .unmapped => 5

/-- `STATUS` after a command that ended normally: `DONE` (R122, R132, R152). -/
def statusOfSuccess : Word := 0x00000001

/-- `STATUS` after a fault of code `n`: `2 + 16 n` (R178). -/
def statusOfFault (f : CmdFault) : Word := BitVec.ofNat 32 (2 + 16 * f.code)

end Sys2Proof.Machine
end

