-- ==== Sys2Proof/Machine/Ops.lean ====
section
/-! DEFINITION. The named operations: bytes, words, vectors and matrices of memory (R40 to R44), the platform's memory
map (R49, R53), how a command starts, raises a fault (R178) and ends (R122, R132, R152), and the reset event (R190). -/

namespace Sys2Proof.Machine

/-! ### Memory (R40, R42, R43, R44) -/

/-- The canonical form, from address `lo` on: addresses strictly rising, inside the address space, and no byte
equal to what an unlisted address reads as. -/
def memoryWfFrom (lo : Nat) : Memory → Bool
  | [] => true
  | (k, v) :: m =>
    decide (lo ≤ k) && decide (k < Config.addressSpace) && decide (v ≠ Config.unlistedByte) && memoryWfFrom (k + 1) m

/-- The canonical form of a memory: equal memories are equal lists. -/
def Memory.wf (m : Memory) : Bool := memoryWfFrom 0 m

/-- The byte at address `a`. -/
def readByte : Memory → Nat → Byte
  | [], _ => Config.unlistedByte
  | (k, v) :: m, a => if a < k then Config.unlistedByte else if a = k then v else readByte m a

/-- The memory with byte `b` at address `a`; writing the byte that an unlisted address reads as removes the entry. -/
def writeByte : Memory → Nat → Byte → Memory
  | [], a, b => if b = Config.unlistedByte then [] else [(a, b)]
  | (k, v) :: m, a, b =>
    if a < k then (if b = Config.unlistedByte then (k, v) :: m else (a, b) :: (k, v) :: m)
    else if a = k then (if b = Config.unlistedByte then m else (a, b) :: m)
    else (k, v) :: writeByte m a b

/-- `MemRead(a, n)`: the `n` bytes from `a` on as a little-endian unsigned integer (R42, 00_scope.md section 5). -/
def memRead (m : Memory) (a : Nat) : Nat → Nat
  | 0 => 0
  | n + 1 => (readByte m a).toNat + 256 * memRead m (a + 1) n

/-- `MemWrite(a, n, v)`: byte `i` of the `n` bytes from `a` on becomes `(v >> 8i) mod 256` (R42). -/
def memWrite (m : Memory) (a : Nat) : Nat → Nat → Memory
  | 0, _ => m
  | n + 1, v => memWrite (writeByte m a (BitVec.ofNat 8 v)) (a + 1) n (v / 256)

/-- The word at address `a` (R42). -/
def readWord (m : Memory) (a : Nat) : Word := BitVec.ofNat 32 (memRead m a 4)

/-- `VecRead(a)`: lane `k` is the word at `a + 4k` (R43). -/
def readVec (m : Memory) (a : Nat) : Vec := Oct.ofFn fun k => readWord m (a + 4 * k.val)

/-- `VecWrite(a, V)` (R43). -/
def writeVec (m : Memory) (a : Nat) (V : Vec) : Memory :=
  octIndices.foldl (fun m (k : Fin 8) => memWrite m (a + 4 * k.val) 4 (V.get k).toNat) m

/-- The matrix at address `a`: row `r` is the vector at `a + 32r` (R44). -/
def readMat (m : Memory) (a : Nat) : Mat := Oct.ofFn fun r => readVec m (a + 32 * r.val)

/-- A matrix written at address `a`, rows in ascending order (R44, R133, R158). -/
def writeMat (m : Memory) (a : Nat) (M : Mat) : Memory :=
  octIndices.foldl (fun m (r : Fin 8) => writeVec m (a + 32 * r.val) (M.get r)) m

/-- The `n` bytes from `a` on left unspecified by draw `d`. -/
def scrambleBytes (d : Nat) (m : Memory) (a : Nat) : Nat → Memory
  | 0 => m
  | n + 1 => scrambleBytes d (writeByte m a (Config.freeByte d a)) (a + 1) n

/-- The events of reading, or of writing, the eight rows of a matrix at `a`, in ascending order (R133, R158). -/
def matEvents (kind : Nat → BusEvent) (a : Nat) : List BusEvent :=
  octIndices.map fun (r : Fin 8) => kind (a + 32 * r.val)

/-! ### The platform's memory map (R49, R51, R53) -/

/-- Whether a region holds address `a`. -/
def Region.covers (r : Region) (a : Nat) : Bool := decide (r.base ≤ a) && decide (a < r.base + r.size)

/-- `Readable` (R53). -/
def isReadable (map : List Region) (a : Nat) : Bool := map.any fun r => r.readable && r.covers a

/-- `Writable` (R53). -/
def isWritable (map : List Region) (a : Nat) : Bool := map.any fun r => r.writable && r.covers a

/-- Whether some memory or device is at address `a` at all. -/
def isPresent (map : List Region) (a : Nat) : Bool := map.any fun r => r.covers a

/-- Whether address `a` is not ordinary memory (R51). -/
def isDevice (map : List Region) (a : Nat) : Bool := map.any fun r => decide (r.kind = .device) && r.covers a

/-- An address the platform does not let the block use as the footprint needs it: not `Readable`, or not `Writable`
where it is written (R49). -/
def isUnmapped (map : List Region) (writes : Bool) (a : Nat) : Bool :=
  !(isReadable map a) || (writes && !(isWritable map a))

/-- Whether a range holds address `a`. -/
def Span.holds (sp : Span) (a : Nat) : Bool := decide (sp.start ≤ a) && decide (a < sp.start + sp.len)

/-- The lowest unmapped address of a range, if there is one (R176). Going up from the start of the range, an address
can be the first unmapped one only at the start itself or where some region ends, so those are the only candidates. -/
def lowestUnmapped (map : List Region) (sp : Span) : Option Nat :=
  ((sp.start :: map.map fun r => r.base + r.size).filter fun a => sp.holds a && isUnmapped map sp.writes a).min?

/-- Whether a range holds an address that is not ordinary memory (R51). -/
def touchesDevice (map : List Region) (sp : Span) : Bool :=
  map.any fun r => decide (r.kind = .device) &&
    decide (max r.base sp.start < min (r.base + r.size) (sp.start + sp.len))

/-! ### The start and the end of a command -/

/-- The host's write to `CMD` starts a command: the word is stored and the sequencer leaves `IDLE` (R25, R73). -/
def beginCommand (cw : Word) (s : State) : State :=
  { s with cmd := cw, seq := { s.seq with phase := .check }, events := [] }

/-- `raise F(info)`, the block's only exception: `STATUS` and `ERRINFO` are written, the sequencer returns to `IDLE`,
and nothing else changes (R178, R179). There is no handler, so no saved state and no return (R180). -/
def raise (f : CmdFault) (info : BitVec 64) (s : State) : State :=
  { s with status := statusOfFault f, errinfo := info, seq := { s.seq with phase := .idle } }

/-- A command ends normally: `STATUS` is `DONE`, `ERRINFO` is 0, the sequencer is idle (R122, R132, R141, R152); the
scratch registers and `blk`, `i`, `c` are unspecified from here on (R29, R160). -/
def finish (s : State) : State :=
  { s with
    status := statusOfSuccess, errinfo := 0
    scratch := Config.freeScratch s.draws
    seq := { Config.freeSequencer s.draws with phase := .idle }
    draws := s.draws + 1 }

/-- The reset event (R190, R191): `CMD`, `STATUS`, `ERRINFO` become 0 and the block is idle; the operand registers, the
scratch registers and `blk`, `i`, `c` are unspecified. Memory is not part of the block. -/
def resetBlock (s : State) : State :=
  { s with
    cmd := 0, status := 0, errinfo := 0
    base := Config.freeRegister s.draws 0, count := Config.freeRegister s.draws 1
    sp := Oct.ofFn fun k => Config.freeRegister s.draws (2 + k.val)
    scratch := Config.freeScratch s.draws
    seq := { Config.freeSequencer s.draws with phase := .idle }
    events := [], draws := s.draws + 1 }

end Sys2Proof.Machine
end

