-- ==== Sys2Proof/Syntax.lean ====
section
/-! DEFINITION. The commands of the block (R72): one constructor per row of spec/opcode_table.json. -/

namespace Sys2Proof

/-- The three commands. A command word carries no operand (R71): the operands are read from the operand registers
`BASE`, `COUNT`, `SP[0..7]` when the command starts (R76), so no constructor has a field. -/
inductive Instr where
  /-- Reverse the bytes of every 32-bit word of a buffer in place (R120 to R126). -/
  | normalize
  /-- Transpose an 8 by 8 matrix of words in place (R130 to R135). -/
  | transpose
  /-- Advance eight SHA-256 computations by `COUNT` blocks (R140 to R160). -/
  | compress
  deriving DecidableEq, Repr

end Sys2Proof
end

