-- ==== Sys2Proof/Machine/Operands.lean ====
section
/-! DEFINITION. The operands of the commands (R76): the addresses they form, their footprints (R47), and the checks
that decide between running a command and one of its faults (R121, R131, R142, R177). -/

namespace Sys2Proof.Machine

/-! ### Addresses (R76, R112), in unbounded integers -/

/-- NORMALIZE chunk `c`: `BASE + 32c`. -/
def chunkAddr (s : State) (c : Nat) : Nat := s.base.toNat + 32 * c

/-- The matrix of TRANSPOSE and the State matrix of COMPRESS: `BASE`. -/
def matrixAddr (s : State) : Nat := s.base.toNat

/-- Half `h` of the current block of stream `k`: `p[k] + 32h`. -/
def streamAddr (s : State) (k : Fin 8) (h : Nat) : Nat := (s.scratch.p.get k).toNat + 32 * h

/-- How many chunks a NORMALIZE has: `COUNT / 8`. -/
def chunkCount (s : State) : Nat := s.count.toNat / 8

/-! ### Footprints (R47) -/

/-- The range of a matrix: `[BASE, BASE + 256)`, read and written. -/
def matrixSpan (s : State) : Span := { start := s.base.toNat, len := 256, writes := true }

/-- The range of stream `k`: `[SP[k], SP[k] + 64 COUNT)`, read only. -/
def streamSpan (s : State) (k : Fin 8) : Span :=
  { start := (s.sp.get k).toNat, len := 64 * s.count.toNat, writes := false }

/-- The footprint of a command, in the order in which the checks take its ranges (R47, R177). -/
def footprint (i : Instr) (s : State) : List Span :=
  match i with
  | .normalize => [{ start := s.base.toNat, len := 4 * s.count.toNat, writes := true }]
  | .transpose => [matrixSpan s]
  | .compress => if s.count = 0 then [] else matrixSpan s :: octIndices.map (streamSpan s)

/-! ### The checks -/

/-- The checks of classes 3 to 5 on a footprint: every range for alignment first, then every range against the top of
the address space, then every range against the memory map (R174 to R177). -/
def checkSpans (map : List Region) (spans : List Span) : Option (CmdFault × BitVec 64) :=
  match spans.find? fun sp => decide (sp.start % Config.alignment ≠ 0) with
  | some sp => some (.misaligned, BitVec.ofNat 64 sp.start)
  | none =>
    match spans.find? fun sp => decide (Config.addressSpace < sp.start + sp.len) with
    | some sp => some (.range, BitVec.ofNat 64 sp.start)
    | none =>
      match spans.findSome? (lowestUnmapped map) with
      | some a => some (.unmapped, BitVec.ofNat 64 a)
      | none => none

/-- Whether `COUNT` is a legal length of a NORMALIZE: a positive multiple of 8 (R121, R173). -/
def lengthLegal (s : State) : Bool := decide (s.count.toNat ≠ 0) && decide (s.count.toNat % 8 = 0)

/-- The first check that a command fails, with what `ERRINFO` records of it; `none` if it fails none (R177). -/
def check (i : Instr) (s : State) : Option (CmdFault × BitVec 64) :=
  if i = .normalize ∧ lengthLegal s = false then some (.badLength, s.count)
  else checkSpans s.map (footprint i s)

/-- Whether the State range of a COMPRESS overlaps a stream range, which the block does not check (R52). -/
def streamOverlap (s : State) : Bool :=
  octIndices.any fun k =>
    decide (s.base.toNat < (s.sp.get k).toNat + 64 * s.count.toNat) &&
      decide ((s.sp.get k).toNat < s.base.toNat + 256)

/-- Run a command: its checks first, before any access, and the first that fails ends it as a fault (R121, R131, R142,
R178). A footprint that is not ordinary memory is refused (R51); otherwise the command runs to its end (R157). -/
def runChecked (i : Instr) (body : State → State) (s : State) : Host.Outcome State Fault Refusal :=
  match check i s with
  | some (f, info) => .next (raise f info s)
  | none => if (footprint i s).any (touchesDevice s.map) then .refused .deviceFootprint else .next (body s)

end Sys2Proof.Machine
end

