-- ==== Sys2Proof/Machine/Compress.lean ====
section
/-! DEFINITION. COMPRESS (43_compress.md): the six steps of one block (R144 to R151), the block loop (R143) and the
command (R140 to R142, R152). -/

namespace Sys2Proof.Machine

/-- `CHECK -> C_LOAD(blk = 0)`: the local pointers are loaded from the stream pointers (R143, R25). -/
def enterCompress (s : State) : State :=
  { s with
    scratch := { s.scratch with p := s.sp }
    seq := { s.seq with phase := .cLoad, blk := 0 } }

/-- `L[h][k]`: half `h` of the current block of stream `k`, byte-normalized (R144). -/
def loadHalf (s : State) (h : Nat) : Mat := Oct.ofFn fun k => bswapV (readVec s.mem (streamAddr s k h))

/-- The sixteen reads of step 1: `k` outer, `h` inner (R158). -/
def loadEvents (s : State) : List BusEvent :=
  octIndices.flatMap fun (k : Fin 8) => [.read (streamAddr s k 0), .read (streamAddr s k 1)]

/-- Step 1, `C_LOAD`: load and normalize (R144). -/
def compressLoad (s : State) : State :=
  { s with
    scratch := { s.scratch with L := ⟨loadHalf s 0, loadHalf s 1⟩ }
    seq := { s.seq with phase := .cTranspose }
    events := s.events ++ loadEvents s }

/-- Step 2 on the scratch registers: both halves of `L` transposed into the window (R145). The transpose intermediates
are left as the second of the two leaves them. -/
def transposeBank (x : Scratch) : Scratch :=
  { x with
    w := ⟨transpose8 x.L.lo, transpose8 x.L.hi⟩
    t := networkT x.L.hi
    u := networkU (networkT x.L.hi) }

/-- Step 2, `C_TRANSPOSE` (R145). -/
def compressTranspose (s : State) : State :=
  { s with scratch := transposeBank s.scratch, seq := { s.seq with phase := .cCopy } }

/-- Step 3 on the scratch registers: the State rows copied into `S` and into `a .. h` (R146). -/
def copyRows (S : Mat) (x : Scratch) : Scratch :=
  { x with S := S, a := S.x0, b := S.x1, c := S.x2, d := S.x3, e := S.x4, f := S.x5, g := S.x6, h := S.x7 }

/-- Step 3, `C_COPY`: the eight State rows are read (R146). -/
def compressCopy (s : State) : State :=
  { s with
    scratch := copyRows (readMat s.mem (matrixAddr s)) s.scratch
    seq := { s.seq with phase := .cRound, i := 0 }
    events := s.events ++ matEvents .read (matrixAddr s) }

/-- The new value of slot `j`, from the window as it stands (R148). -/
def expandedSlot (w : Bank) (j : Fin 16) : Vec :=
  addV (addV (addV (w.slot j) (lift1 smallSigma1 (w.slot (Fin.ofNat 16 (j.val + 14)))))
    (w.slot (Fin.ofNat 16 (j.val + 9)))) (lift1 smallSigma0 (w.slot (Fin.ofNat 16 (j.val + 1))))

/-- The schedule expansion: the sixteen slots in ascending order, one at a time, each from the window as the slots
before it have left it (R148). -/
def expandSchedule (w : Bank) : Bank := slotIndices.foldl (fun w j => w.setSlot j (expandedSlot w j)) w

/-- `T1` of round `i` (R149). -/
def roundT1 (i : Nat) (x : Scratch) : Vec :=
  addV (addV (addV (addV (lift1 bigSigma1 x.e) (lift3 ch x.e x.f x.g)) x.h) (bcast (roundConstant i)))
    (x.w.slot (Fin.ofNat 16 i))

/-- `T2` (R149). -/
def roundT2 (x : Scratch) : Vec := addV (lift1 bigSigma0 x.a) (lift3 maj x.a x.b x.c)

/-- The body of round `i`: `T1`, `T2`, and the eight simultaneous assignments (R149). -/
def roundBody (i : Nat) (x : Scratch) : Scratch :=
  { x with
    T1 := roundT1 i x, T2 := roundT2 x
    a := addV (roundT1 i x) (roundT2 x), b := x.a, c := x.b, d := x.c
    e := addV x.d (roundT1 i x), f := x.e, g := x.f, h := x.g }

/-- Round `i`: at a positive multiple of 16 the schedule is expanded first (R147). -/
def roundStep (i : Nat) (x : Scratch) : Scratch :=
  if 0 < i ∧ i % 16 = 0 then roundBody i { x with w := expandSchedule x.w } else roundBody i x

/-- Step 4, one `C_ROUND(i)`; after `i = 63` comes `C_FEED` (R25, R147). -/
def compressRound (s : State) : State :=
  { s with
    scratch := roundStep s.seq.i s.scratch
    seq := if s.seq.i < 63 then { s.seq with i := s.seq.i + 1 } else { s.seq with phase := .cFeed } }

/-- `n` rounds from the current one on. -/
def rounds : Nat → State → State
  | 0, s => s
  | n + 1, s => compressRound (rounds n s)

/-- Row by row `S[r] + working[r]` (R150). -/
def feedForward (x : Scratch) : Mat := Oct.ofFn fun r => addV (x.S.get r) (x.working.get r)

/-- Step 5, `C_FEED`: the State matrix is written (R150). -/
def compressFeed (s : State) : State :=
  { s with
    mem := writeMat s.mem (matrixAddr s) (feedForward s.scratch)
    seq := { s.seq with phase := .cAdvance }
    events := s.events ++ matEvents .write (matrixAddr s) }

/-- Step 6, `C_ADVANCE`: every local pointer moves on by 64 bytes, and the next block, if there is one, is loaded next
(R151, R25). -/
def compressAdvance (s : State) : State :=
  { s with
    scratch := { s.scratch with p := Oct.ofFn fun k => s.scratch.p.get k + 64 }
    seq := if s.seq.blk + 1 < s.count.toNat then { s.seq with phase := .cLoad, blk := s.seq.blk + 1 } else s.seq }

/-- The six steps of one block (R143). -/
def compressBlock (s : State) : State :=
  compressAdvance (compressFeed (rounds 64 (compressCopy (compressTranspose (compressLoad s)))))

/-- `n` blocks from the current one on. -/
def blocks : Nat → State → State
  | 0, s => s
  | n + 1, s => compressBlock (blocks n s)

/-- The end of a COMPRESS (R152). Where the State range overlapped a stream range, the State matrix is left
unspecified (R52, 92_eei_decisions.md D16). -/
def finishCompress (s : State) : State :=
  finish (if streamOverlap s then { s with mem := scrambleBytes s.draws s.mem (matrixAddr s) 256 } else s)

/-- COMPRESS once its checks have passed: with `COUNT = 0` nothing is done (R141), otherwise `COUNT` blocks (R143). -/
def compressBody (s : State) : State :=
  if s.count = 0 then finish s else finishCompress (blocks s.count.toNat (enterCompress s))

/-- COMPRESS (R140 to R143). -/
def execCompress (s : State) : Host.Outcome State Fault Refusal := runChecked .compress compressBody s

end Sys2Proof.Machine
end

