-- ==== Sys2Proof/Machine/Normalize.lean ====
section
/-! DEFINITION. NORMALIZE (41_normalize.md). -/

namespace Sys2Proof.Machine

/-- `CHECK -> N_CHUNK(c = 0)` (R25). -/
def enterNormalize (s : State) : State := { s with seq := { s.seq with phase := .nChunk, c := 0 } }

/-- `N_CHUNK`: the vector at `BASE + 32c` is read, byte-reversed in every lane and written back (R122, R125). -/
def chunkWork (s : State) : State :=
  { s with
    mem := writeVec s.mem (chunkAddr s s.seq.c) (bswapV (readVec s.mem (chunkAddr s s.seq.c)))
    events := s.events ++ [.read (chunkAddr s s.seq.c), .write (chunkAddr s s.seq.c)] }

/-- `N_CHUNK(c) -> N_CHUNK(c + 1)`, unless `c` was the last chunk (R25). -/
def nextChunk (s : State) : State :=
  if s.seq.c + 1 < chunkCount s then { s with seq := { s.seq with c := s.seq.c + 1 } } else s

/-- `n` chunks from the current one on, in ascending order; the last of them is applied last. -/
def chunks : Nat → State → State
  | 0, s => s
  | n + 1, s => nextChunk (chunkWork (chunks n s))

/-- NORMALIZE once its checks have passed (R122). -/
def normalizeBody (s : State) : State := finish (chunks (chunkCount s) (enterNormalize s))

/-- NORMALIZE (R120 to R122). -/
def execNormalize (s : State) : Host.Outcome State Fault Refusal := runChecked .normalize normalizeBody s

end Sys2Proof.Machine
end

