-- ==== Sys2Proof/Machine/Transpose.lean ====
section
/-! DEFINITION. TRANSPOSE (42_transpose.md). -/

namespace Sys2Proof.Machine

/-- `T_READ`: all eight rows are read before any is written, and the transpose is formed (R132, R133). -/
def transposeRead (s : State) : State :=
  { s with
    scratch := { s.scratch with
      M := readMat s.mem (matrixAddr s)
      N := transpose8 (readMat s.mem (matrixAddr s))
      t := networkT (readMat s.mem (matrixAddr s))
      u := networkU (networkT (readMat s.mem (matrixAddr s))) }
    seq := { s.seq with phase := .tWrite }
    events := s.events ++ matEvents .read (matrixAddr s) }

/-- `T_WRITE`: the eight rows of the transpose are written (R132, R133). -/
def transposeWrite (s : State) : State :=
  { s with
    mem := writeMat s.mem (matrixAddr s) s.scratch.N
    events := s.events ++ matEvents .write (matrixAddr s) }

/-- `CHECK -> T_READ` (R25). -/
def enterTranspose (s : State) : State := { s with seq := { s.seq with phase := .tRead } }

/-- TRANSPOSE once its checks have passed (R132). -/
def transposeBody (s : State) : State := finish (transposeWrite (transposeRead (enterTranspose s)))

/-- TRANSPOSE (R130 to R132). -/
def execTranspose (s : State) : Host.Outcome State Fault Refusal := runChecked .transpose transposeBody s

end Sys2Proof.Machine
end

