-- ==== Sys2Proof/Machine/Dispatch.lean ====
section
/-! DEFINITION. One arm per command (R73). -/

namespace Sys2Proof.Machine

def exec (i : Instr) (s : State) : Host.Outcome State Fault Refusal :=
  match i with
  | .normalize => Sys2Proof.Machine.execNormalize s
  | .transpose => Sys2Proof.Machine.execTranspose s
  | .compress => Sys2Proof.Machine.execCompress s

end Sys2Proof.Machine
end

