-- ==== Sys2Proof/Decode.lean ====
section
/-! DEFINITION. Command words: the decoder (R70 to R75), total on every 32-bit value and rejecting by name, and after
it the encoder, written from the same table (R71, R72). -/

namespace Sys2Proof

/-- Why a command word is not a command (R74). -/
inductive DecodeError where
  /-- The field `RSV`, bits 31:8, is not zero. -/
  | reservedBits (rsv : BitVec 24)
  /-- `OPC` is none of `0x01`, `0x02`, `0x03`. -/
  | unknownOpcode (opc : Byte)
  deriving DecidableEq, Repr

/-- Field `RSV`, bits 31:8 (R71). -/
def fieldRsv (cw : Word) : BitVec 24 := cw.extractLsb' 8 24

/-- Field `OPC`, bits 7:0 (R71). -/
def fieldOpc (cw : Word) : Byte := cw.extractLsb' 0 8

/-- The command an operation code names (R72). -/
def instrOfOpcode (opc : Byte) : Option Instr :=
  if opc = 0x01 then some .normalize
  else if opc = 0x02 then some .transpose
  else if opc = 0x03 then some .compress
  else none

/-- The command of a command word (R73): a word with `RSV ≠ 0` or an unassigned `OPC` is none (R74). -/
def decode (cw : Word) : Except DecodeError Instr :=
  if fieldRsv cw = 0 then
    match instrOfOpcode (fieldOpc cw) with
    | some i => .ok i
    | none => .error (.unknownOpcode (fieldOpc cw))
  else .error (.reservedBits (fieldRsv cw))

/-- The operation code of a command (R72). -/
def opcode : Instr → Byte
  | .normalize => 0x01
  | .transpose => 0x02
  | .compress => 0x03

/-- The command word of a command: `RSV = 0` above `OPC` (R71). -/
def encode (i : Instr) : Word := (0 : BitVec 24) ++ opcode i

/-- The command the decoder reads from a row of the opcode table, whose bits are the command word's own: bit 0 of the
table is bit 0 of the word, and the hardware stores no command word in memory (R61), so there is no byte order. -/
def decodeTableWord (nbits w : Nat) : Option Instr :=
  if nbits ≤ 32 ∧ w < 2 ^ nbits then
    match decode (BitVec.ofNat 32 w) with
    | .ok i => some i
    | .error _ => none
  else none

end Sys2Proof
end

