-- ==== Sys2Proof/Machine/RegFile.lean ====
section
/-! DEFINITION. The host-visible register file (R31, R78): which offset and width name which register, and what a
host read and a host write of each do. -/

namespace Sys2Proof.Machine

/-- Every slot of the register file, in the order of R78's table. -/
def allRegs : List Reg :=
  [.cmd, .upper 0, .status, .upper 1, .errinfo, .base, .count, .reserved 0, .reserved 1, .reserved 2] ++
    octIndices.map Reg.sp

/-- The offset of a register from `REGBASE` (R78). -/
def regOffset : Reg → Nat
  | .cmd => 0x00
  | .upper k => 0x04 + 8 * k
  | .status => 0x08
  | .errinfo => 0x10
  | .base => 0x18
  | .count => 0x20
  | .reserved k => 0x28 + 8 * k
  | .sp k => 0x40 + 8 * k

/-- The width of a register in bits (R78). The reserved upper halves of the slots of `CMD` and `STATUS` are the 32 bits
that their four bytes hold (DEDUCED, notes/assumptions/9.md). -/
def regWidth : Reg → Nat
  | .cmd => 32
  | .upper _ => 32
  | .status => 32
  | .errinfo => 64
  | .base => 64
  | .count => 64
  | .reserved _ => 64
  | .sp _ => 64

/-- The register that an access of this offset and width names; none, where no register lies whole at that offset with
that width (R31). -/
def regAt (offset width : Nat) : Option Reg :=
  allRegs.find? fun r => decide (regOffset r = offset) && decide (regWidth r = width)

/-- What a host read of a register returns, zero-extended to 64 bits; a reserved slot reads as 0 (R14 to R16, R31). -/
def readReg (r : Reg) (s : State) : BitVec 64 :=
  match r with
  | .cmd => s.cmd.setWidth 64
  | .status => s.status.setWidth 64
  | .errinfo => s.errinfo
  | .base => s.base
  | .count => s.count
  | .sp k => s.sp.get k
  | .reserved _ => 0
  | .upper _ => 0

/-- What a host write stores (R11 to R16, R31). A write to `STATUS`, `ERRINFO` or a reserved slot is ignored. A write
to `CMD` stores the word; that it also starts the command is `issue` (Machine/Host.lean). -/
def writeReg (r : Reg) (v : BitVec 64) (s : State) : State :=
  match r with
  | .cmd => { s with cmd := v.setWidth 32 }
  | .base => { s with base := v }
  | .count => { s with count := v }
  | .sp k => { s with sp := s.sp.set k v }
  | .status => s
  | .errinfo => s
  | .reserved _ => s
  | .upper _ => s

/-- Whether a register access is one the register file has: a register at that offset with that width. -/
def accessLegal (offset width : Nat) : Bool := (regAt offset width).isSome

/-- Whether a register write is one the register file has: the access is legal and the value fits the width. -/
def writeLegal (offset width : Nat) (v : BitVec 64) : Bool :=
  accessLegal offset width && decide (v.toNat < 2 ^ width)

end Sys2Proof.Machine
end

