-- ==== Sys2Proof/WellFormed.lean ====
section
/-! DEFINITION. The well-formedness checks. A command word carries no operand (R71), so a term of `Instr` has nothing to
check; what can be ill-formed on this hardware is a host transaction (R31, R78). -/

namespace Sys2Proof

/-- Every command is well-formed: its operands are register values, checked when it runs (R76, R177). -/
def Instr.wellFormed (i : Instr) : Bool :=
  match i with
  | .normalize => true
  | .transpose => true
  | .compress => true

/-- A register transaction names a whole register by its own offset and width, and a value written fits that width
(R31, R78). The other transactions have nothing to check. -/
def Machine.Transaction.wellFormed (t : Machine.Transaction) : Bool :=
  match t with
  | .regWrite offset width value => Machine.writeLegal offset width value
  | .regRead offset width => Machine.accessLegal offset width
  | .memWrite _ _ => true
  | .memRead _ => true
  | .reset => true
  | .resetDuring _ => true

end Sys2Proof
end

