-- ==== Sys2Proof/Machine/Host.lean ====
section
/-! DEFINITION. The host's side (R31, R73, R199): what one transaction does to the machine. `run` stands for `exec`,
which Machine/Step.lean supplies. -/

namespace Sys2Proof.Machine

/-- The host's write of `cw` to `CMD` (R73): the word is stored and executed as a command word; a word that is no
command faults with `ILLEGAL_CMD` (R172). The host is held until the command has ended, so this is one step. -/
def issue (run : Instr → State → Host.Outcome State Fault Refusal) (cw : Word) (s : State) :
    Host.Outcome State Fault Refusal :=
  match decode cw with
  | .ok i => run i (beginCommand cw s)
  | .error _ => .next (raise .illegalCmd (cw.setWidth 64) (beginCommand cw s))

/-- A reply to the host is recorded. -/
def reply (v : BitVec 64) (s : State) : State := { s with replies := s.replies ++ [v] }

/-- A register write: an access that the register file does not have is refused (R31). -/
def registerWrite (run : Instr → State → Host.Outcome State Fault Refusal) (offset width : Nat) (v : BitVec 64)
    (s : State) : Host.Outcome State Fault Refusal :=
  if (Transaction.regWrite offset width v).wellFormed then
    match regAt offset width with
    | some .cmd => issue run (v.setWidth 32) s
    | some r => .next (writeReg r v s)
    | none => .refused (.badRegisterAccess offset width)
  else .refused (.badRegisterAccess offset width)

/-- A register read: no side effect besides the reply (R31). -/
def registerRead (offset width : Nat) (s : State) : Host.Outcome State Fault Refusal :=
  match regAt offset width with
  | some r => .next (reply (readReg r s) s)
  | none => .refused (.badRegisterAccess offset width)

/-- The host's own access to memory (R40): a device's behaviour is not given (R51), and where the map has no region
there is no memory (R53). -/
def hostMemory (a : Addr) (s : State) (access : State → State) : Host.Outcome State Fault Refusal :=
  if isDevice s.map a.toNat then .refused (.hostDeviceAccess a)
  else if isPresent s.map a.toNat then .next (access s)
  else .fault (.hostNoMemory a)

/-- Every byte of the ranges a command writes left unspecified by draw `d` (R192). -/
def scrambleWritten (d : Nat) (spans : List Span) (m : Memory) : Memory :=
  spans.foldl (fun m sp => if sp.writes then scrambleBytes d m sp.start sp.len else m) m

/-- The reset event while the command of `cw` is running (R192): the command is abandoned, the block is reset, and every
byte of the command's write footprint is unspecified. A word that is no command, or a command that fails a check, has
nothing to abandon: it writes no memory (R179). -/
def resetDuringCommand (cw : Word) (s : State) : Host.Outcome State Fault Refusal :=
  match decode cw with
  | .error _ => .next (resetBlock s)
  | .ok i =>
    match check i s with
    | some _ => .next (resetBlock s)
    | none =>
      if (footprint i s).any (touchesDevice s.map) then .refused .deviceFootprint
      else .next (resetBlock { s with mem := scrambleWritten s.draws (footprint i s) s.mem })

/-- One transaction (R199). -/
def hostTurn (run : Instr → State → Host.Outcome State Fault Refusal) (t : Transaction) (s : State) :
    Host.Outcome State Fault Refusal :=
  match t with
  | .regWrite offset width v => registerWrite run offset width v s
  | .regRead offset width => registerRead offset width s
  | .memWrite a b => hostMemory a s fun s => { s with mem := writeByte s.mem a.toNat b }
  | .memRead a => hostMemory a s fun s => reply ((readByte s.mem a.toNat).setWidth 64) s
  | .reset => .next (resetBlock s)
  | .resetDuring cw => resetDuringCommand cw s

/-- The transaction that writes the command word whose bits are `w` to `CMD`: offset `0x00`, width 32 (R73, R79). The bits
from `nbits` on are zero. -/
def commandWrite (nbits w : Nat) : Transaction :=
  .regWrite 0x00 32 (BitVec.ofNat 64 (w % 2 ^ min nbits 32))

end Sys2Proof.Machine
end

