-- ==== Sys2Proof/Machine/Step.lean ====
section
/-! DEFINITION. One step of the machine: the host's next transaction (R199). The block fetches nothing (R25, R61); its
commands come from the host's writes to `CMD`. -/

namespace Sys2Proof.Machine

/-- The host's next transaction, from its start to its completion: a command runs to its end within the step (R9, R73).
With no transaction pending the block stays idle (R186). -/
def step (s : State) : Host.Outcome State Fault Refusal :=
  match s.host with
  | [] => .next s
  | t :: rest => hostTurn exec t { s with host := rest }

/-- `s` with the write of a command word to `CMD` as the host's next transaction, before those already pending. -/
def State.withFetchWord (s : State) (nbits w : Nat) : State := { s with host := commandWrite nbits w :: s.host }

end Sys2Proof.Machine
end

