-- ==== Sys2Proof/Machine/Assembler.lean ====
section
/-! DEFINITION. The notation for host programs (R79, R80): each line is a list of register transactions. -/

namespace Sys2Proof.Machine

/-- `WR reg, value` (R79). -/
def asmWr (r : Reg) (v : BitVec 64) : Transaction := .regWrite (regOffset r) (regWidth r) v

/-- `RD reg` (R79). -/
def asmRd (r : Reg) : Transaction := .regRead (regOffset r) (regWidth r)

/-- `CMDW value` (R79). -/
def asmCmdw (cw : Word) : Transaction := .regWrite 0x00 32 (cw.setWidth 64)

/-- `NORMALIZE`, `TRANSPOSE` or `COMPRESS` with the operands already in the registers (R79). -/
def asmCommand (i : Instr) : Transaction := asmCmdw (encode i)

/-- `NORMALIZE base, count` (R80). -/
def asmNormalize (base : Addr) (count : BitVec 64) : List Transaction :=
  [asmWr .base base, asmWr .count count, asmCommand .normalize]

/-- `TRANSPOSE base` (R80). -/
def asmTranspose (base : Addr) : List Transaction := [asmWr .base base, asmCommand .transpose]

/-- `COMPRESS state, (s0, .., s7), nblocks` (R80). -/
def asmCompress (state : Addr) (streams : Oct Addr) (nblocks : BitVec 64) : List Transaction :=
  asmWr .base state :: octIndices.map (fun k => asmWr (.sp k) (streams.get k)) ++
    [asmWr .count nblocks, asmCommand .compress]

end Sys2Proof.Machine
end

