-- ==== Sys2Proof/Machine/Scalar.lean ====
section
/-! DEFINITION. The scalar functions that the spec measures a lane of COMPRESS against (R153, R154): the standard message
schedule and the compression function of one message, written on words, with no vector, window or lane. No part of the
machine calls them; statements do. -/

namespace Sys2Proof.Machine

/-- Word `t` of a 64-byte block, for `t < 16`: its big-endian reading (R45). -/
def blockWord (B : Nat → Byte) (t : Nat) : Word := B (4 * t) ++ B (4 * t + 1) ++ B (4 * t + 2) ++ B (4 * t + 3)

/-- `n` more words appended to a schedule, each `σ1(W[t-2]) + W[t-7] + σ0(W[t-15]) + W[t-16]` (R154). -/
def extendSchedule : Nat → List Word → List Word
  | 0, W => W
  | n + 1, W =>
    extendSchedule n (W ++ [smallSigma1 (W.getD (W.length - 2) 0) + W.getD (W.length - 7) 0 +
      smallSigma0 (W.getD (W.length - 15) 0) + W.getD (W.length - 16) 0])

/-- `W[0..63]` of a block (R154). -/
def messageSchedule (B : Nat → Byte) : List Word := extendSchedule 48 ((List.range 16).map (blockWord B))

/-- `W[t]` (R154). -/
def scheduleWord (B : Nat → Byte) (t : Nat) : Word := (messageSchedule B).getD t 0

/-- One round on the eight working words `a .. h` of one lane, with the constant `k` and the schedule word `w` (R149). -/
def scalarRound (k w : Word) (v : Oct Word) : Oct Word :=
  let t1 := bigSigma1 v.x4 + ch v.x4 v.x5 v.x6 + v.x7 + k + w
  let t2 := bigSigma0 v.x0 + maj v.x0 v.x1 v.x2
  ⟨t1 + t2, v.x0, v.x1, v.x2, v.x3 + t1, v.x4, v.x5, v.x6⟩

/-- The rounds `0 .. n - 1` on one lane (R149, R153). -/
def scalarRounds (B : Nat → Byte) : Nat → Oct Word → Oct Word
  | 0, v => v
  | n + 1, v => scalarRound (roundConstant n) (scheduleWord B n) (scalarRounds B n v)

/-- `CF(H, B)`, the scalar SHA-256 compression function (R153). -/
def compressionFunction (H : Oct Word) (B : Nat → Byte) : Oct Word :=
  Oct.ofFn fun r => H.get r + (scalarRounds B 64 H).get r

/-- `CF` over `n` consecutive blocks of a stream (R153). -/
def chainBlocks : Nat → Oct Word → (Nat → Byte) → Oct Word
  | 0, H, _ => H
  | n + 1, H, B => chainBlocks n (compressionFunction H B) fun j => B (64 + j)

/-- Column `k` of the State matrix at address `a`: the chaining value of stream `k` (R27, R153). -/
def stateColumn (m : Memory) (a : Nat) (k : Fin 8) : Oct Word := Oct.ofFn fun r => ((readMat m a).get r).get k

end Sys2Proof.Machine
end

