-- ==== Sys2Proof/Machine/Sequencer.lean ====
section
/-! DEFINITION. The same commands one phase at a time (R25): the step-level description that R9 names beside the
command-level one. `exec` runs a command in one step; `tick` is one phase of it. -/

namespace Sys2Proof.Machine

/-- `CHECK` passed: the first phase of the command (R25). A COMPRESS with `COUNT = 0` ends at once (R141). -/
def enterCommand (i : Instr) (s : State) : State :=
  match i with
  | .normalize => enterNormalize s
  | .transpose => enterTranspose s
  | .compress => if s.count = 0 then finish s else enterCompress s

/-- The phase `CHECK`: decode, then the checks, then the command's first phase (R25, R73, R177). -/
def tickCheck (s : State) : State :=
  match decode s.cmd with
  | .error _ => raise .illegalCmd (s.cmd.setWidth 64) s
  | .ok i =>
    match check i s with
    | some (f, info) => raise f info s
    | none => enterCommand i s

/-- One phase (R25). In `IDLE` nothing happens. -/
def tick (s : State) : State :=
  match s.seq.phase with
  | .idle => s
  | .check => tickCheck s
  | .nChunk => if s.seq.c + 1 < chunkCount s then nextChunk (chunkWork s) else finish (chunkWork s)
  | .tRead => transposeRead s
  | .tWrite => finish (transposeWrite s)
  | .cLoad => compressLoad s
  | .cTranspose => compressTranspose s
  | .cCopy => compressCopy s
  | .cRound => compressRound s
  | .cFeed => compressFeed s
  | .cAdvance =>
    if s.seq.blk + 1 < s.count.toNat then compressAdvance s else finishCompress (compressAdvance s)

/-- `n` phases. -/
def ticks : Nat → State → State
  | 0, s => s
  | n + 1, s => tick (ticks n s)

/-- How many phases a command has from `CHECK` to `IDLE` (R25): one for `CHECK`, then one a chunk, two for a TRANSPOSE,
and 69 a block (load, transpose, copy, 64 rounds, feed, advance). A command that fails a check has one. -/
def phaseCount (i : Instr) (s : State) : Nat :=
  match check i s with
  | some _ => 1
  | none =>
    match i with
    | .normalize => 1 + chunkCount s
    | .transpose => 3
    | .compress => 1 + 69 * s.count.toNat

end Sys2Proof.Machine
end

