-- ==== Sys2Proof/Safety.lean ====
section
/-! DEFINITION. What counts as a safe run, in the terms the statements use: the machine's invariant, the frames of a
command, and the conditions on memory under which a command does its work. -/

namespace Sys2Proof.Machine

/-- The legal values of `STATUS` (R15). -/
def legalStatus (st : Word) : Bool :=
  decide (st ∈ [0x00000000, 0x00000001, 0x00000012, 0x00000022, 0x00000032, 0x00000042, 0x00000052])

/-- The invariant of the machine between two transactions: memory is in its canonical form, `STATUS` has a legal value
(R15), `ERRINFO` is 0 unless the last command faulted (R16, R171), and the block is idle (R25). -/
structure MachineInv (s : State) : Prop where
  memWf : Memory.wf s.mem = true
  statusLegal : legalStatus s.status = true
  errinfoZero : statusErr s.status = false → s.errinfo = 0
  idle : s.seq.phase = .idle

/-- What no command changes: `CMD`, the operand registers (R11 to R13), the platform's map, the host's own things. -/
structure KeepsOperands (s t : State) : Prop where
  cmd : t.cmd = s.cmd
  base : t.base = s.base
  count : t.count = s.count
  sp : t.sp = s.sp
  map : t.map = s.map
  host : t.host = s.host
  replies : t.replies = s.replies

/-- Every byte outside `[a, a + n)` reads as before. -/
def MemSameOutside (s t : State) (a n : Nat) : Prop :=
  ∀ x, x < a ∨ a + n ≤ x → readByte t.mem x = readByte s.mem x

/-- A command ended normally (R15, R16, R200). -/
structure EndedWell (t : State) : Prop where
  status : t.status = 0x00000001
  errinfo : t.errinfo = 0
  idle : t.seq.phase = .idle

/-- Every address of `[a, a + n)` is ordinary memory that the block may read, and write where `writes` (R49, R51, R53). -/
def MemoryCovers (map : List Region) (a n : Nat) (writes : Bool) : Prop :=
  ∀ x, a ≤ x → x < a + n → isUnmapped map writes x = false ∧ isDevice map x = false

/-- Exactly what a fault changes (R178): `STATUS`, `ERRINFO`, and the sequencer is idle. -/
def faultedState (status : Word) (errinfo : BitVec 64) (s : State) : State :=
  { s with status := status, errinfo := errinfo, seq := { s.seq with phase := .idle } }

/-- An address that the block may not use in a range it reads and writes: not `Readable` or not `Writable` (R49). -/
def BlockedForWrite (map : List Region) (x : Nat) : Prop := isReadable map x = false ∨ isWritable map x = false

/-- An address that the block may not use in a range it only reads: not `Readable` (R49). -/
def BlockedForRead (map : List Region) (x : Nat) : Prop := isReadable map x = false

/-- `x` is the lowest address of `[a, a + n)` with property `p` (R176). -/
def LowestIn (p : Nat → Prop) (a n x : Nat) : Prop := (a ≤ x ∧ x < a + n ∧ p x) ∧ ∀ y, a ≤ y → y < x → ¬ p y

/-- A range is aligned, below the top of the address space, and ordinary memory the block may use (R46, R48, R49, R51). -/
structure RangeReady (map : List Region) (a n : Nat) (writes : Bool) : Prop where
  aligned : a % 32 = 0
  inside : a + n ≤ 2 ^ 64
  covered : MemoryCovers map a n writes

/-- The conditions under which a NORMALIZE does its work (R121, R51). -/
structure NormalizeReady (s : State) : Prop where
  positive : s.count.toNat ≠ 0
  chunked : s.count.toNat % 8 = 0
  buffer : RangeReady s.map s.base.toNat (4 * s.count.toNat) true

/-- The conditions under which a TRANSPOSE does its work (R131, R51). -/
def TransposeReady (s : State) : Prop := RangeReady s.map s.base.toNat 256 true

/-- The conditions under which a COMPRESS with `COUNT > 0` does its work (R142, R51). -/
structure CompressReady (s : State) : Prop where
  matrix : RangeReady s.map s.base.toNat 256 true
  streams : ∀ k : Fin 8, RangeReady s.map (s.sp.get k).toNat (64 * s.count.toNat) false

/-- The State range lies apart from every stream range (R52). -/
def StreamsApart (s : State) : Prop :=
  ∀ k : Fin 8, s.base.toNat + 256 ≤ (s.sp.get k).toNat ∨ (s.sp.get k).toNat + 64 * s.count.toNat ≤ s.base.toNat

/-- The ranges a command writes (R47): its operand range, or nothing for a COMPRESS with `COUNT = 0`. -/
def writtenBytes (i : Instr) (s : State) : Nat :=
  match i with
  | .normalize => 4 * s.count.toNat
  | .transpose => 256
  | .compress => if s.count = 0 then 0 else 256

/-- The bytes of stream `k`, from its first (R13). -/
def streamBytes (s : State) (k : Fin 8) (j : Nat) : Byte := readByte s.mem ((s.sp.get k).toNat + j)

/-- The host's next `n` transactions. -/
def runHost : Nat → State → Host.Outcome State Fault Refusal
  | 0, s => .next s
  | n + 1, s =>
    match step s with
    | .next t => runHost n t
    | .fault f => .fault f
    | .refused r => .refused r

end Sys2Proof.Machine
end

