-- ==== Sys2Proof/Certificates/Slice0/Obligations.lean ====
section
/-! DEFINITION. The statements for the provers, in the order of the spec's files: encoding and the host interface, the
datapath, memory, faults, the three commands, the whole machine. `Host.Outcome.next t` as a conclusion says that the
command, or the step, completes in the state `t`. -/

section
open Sys2Proof Sys2Proof.Machine

/-! ### Encoding (30_encoding.md) -/

/-- R72: the command words of the three rows decode to the three commands. -/
def Obligations.TableWordsDecodeToTheirCommands : Prop :=
  decode 0x00000001 = .ok .normalize ∧ decode 0x00000002 = .ok .transpose ∧ decode 0x00000003 = .ok .compress ∧
    opcode .normalize = 0x01 ∧ opcode .transpose = 0x02 ∧ opcode .compress = 0x03

/-- R71, R72: a word decodes to a command exactly when it is that command's encoding, `RSV = 0` above `OPC`. -/
def Obligations.DecodeAndEncodeAgree : Prop :=
  ∀ (cw : Word) (i : Instr), decode cw = .ok i ↔ cw = encode i

/-- R73: a host write of a command word to `CMD` stores it and runs the command it decodes to; what the step adds around
`exec` is the transaction taken from the list, `CMD`, the phase `CHECK`, and an empty event record. -/
def Obligations.StepRunsTheDecodedCommand : Prop :=
  ∀ (s : State) (rest : List Transaction) (cw : Word) (i : Instr), decode cw = .ok i →
    step { s with host := .regWrite 0x00 32 (cw.setWidth 64) :: rest } =
      exec i { s with host := rest, cmd := cw, seq := { s.seq with phase := .check }, events := [] }

/-- R172, R74: a host write of any other word to `CMD` completes as the fault `ILLEGAL_CMD` and changes nothing but `CMD`,
`STATUS` and `ERRINFO`; no operand register is looked at. -/
def Obligations.IllegalCommandFaults : Prop :=
  ∀ (s : State) (rest : List Transaction) (cw : Word), cw ≠ 0x00000001 → cw ≠ 0x00000002 → cw ≠ 0x00000003 →
    ∃ t, step { s with host := .regWrite 0x00 32 (cw.setWidth 64) :: rest } = .next t ∧
      t.cmd = cw ∧ t.status = 0x00000012 ∧ t.errinfo = cw.setWidth 64 ∧ t.seq.phase = .idle ∧
      t.base = s.base ∧ t.count = s.count ∧ t.sp = s.sp ∧ t.scratch = s.scratch ∧ t.mem = s.mem ∧ t.map = s.map ∧
      t.host = rest ∧ t.replies = s.replies

/-- R79, R80: the three pseudo-instructions expand to the transactions of R80, and running all but the last of them
leaves exactly the bare command to issue, with its operands in the registers and nothing else changed. -/
def Obligations.PseudoInstructionsLoadTheirOperands : Prop :=
  (∀ (s : State) (rest : List Transaction) (b : Addr) (n : BitVec 64),
    asmNormalize b n = [.regWrite 0x18 64 b, .regWrite 0x20 64 n, .regWrite 0x00 32 1] ∧
    runHost 2 { s with host := asmNormalize b n ++ rest } =
      .next { s with host := .regWrite 0x00 32 1 :: rest, base := b, count := n }) ∧
  (∀ (s : State) (rest : List Transaction) (b : Addr),
    asmTranspose b = [.regWrite 0x18 64 b, .regWrite 0x00 32 2] ∧
    runHost 1 { s with host := asmTranspose b ++ rest } =
      .next { s with host := .regWrite 0x00 32 2 :: rest, base := b }) ∧
  (∀ (s : State) (rest : List Transaction) (b : Addr) (p : Oct Addr) (n : BitVec 64),
    asmCompress b p n = [.regWrite 0x18 64 b, .regWrite 0x40 64 p.x0, .regWrite 0x48 64 p.x1, .regWrite 0x50 64 p.x2,
      .regWrite 0x58 64 p.x3, .regWrite 0x60 64 p.x4, .regWrite 0x68 64 p.x5, .regWrite 0x70 64 p.x6,
      .regWrite 0x78 64 p.x7, .regWrite 0x20 64 n, .regWrite 0x00 32 3] ∧
    runHost 10 { s with host := asmCompress b p n ++ rest } =
      .next { s with host := .regWrite 0x00 32 3 :: rest, base := b, sp := p, count := n })

/-! ### The register file (10_state.md R31, 30_encoding.md R78) -/

/-- R78: which offset and width name which register; no other pair names one. That the two upper halves are accessed with
32 bits is the model's choice (notes/assumptions/9.md). -/
def Obligations.RegisterMapIsTheTable : Prop :=
  ∀ (offset width : Nat) (r : Reg), regAt offset width = some r ↔
    match r with
    | .cmd => offset = 0x00 ∧ width = 32
    | .status => offset = 0x08 ∧ width = 32
    | .errinfo => offset = 0x10 ∧ width = 64
    | .base => offset = 0x18 ∧ width = 64
    | .count => offset = 0x20 ∧ width = 64
    | .reserved k => offset = 0x28 + 8 * k.val ∧ width = 64
    | .sp k => offset = 0x40 + 8 * k.val ∧ width = 64
    | .upper k => offset = 0x04 + 8 * k.val ∧ width = 32

/-- R11, R12, R13, R31: a host write to `BASE`, `COUNT` or `SP[k]` stores the value and does nothing else. -/
def Obligations.OperandWritesStoreTheValue : Prop :=
  ∀ (s : State) (rest : List Transaction) (v : BitVec 64),
    step { s with host := .regWrite 0x18 64 v :: rest } = .next { s with host := rest, base := v } ∧
    step { s with host := .regWrite 0x20 64 v :: rest } = .next { s with host := rest, count := v } ∧
    ∀ k : Fin 8, step { s with host := .regWrite (0x40 + 8 * k.val) 64 v :: rest } =
      .next { s with host := rest, sp := Oct.ofFn fun j => if j = k then v else s.sp.get j }

/-- R15, R16, R31, R78: a host write to `STATUS`, `ERRINFO` or a reserved slot is ignored. That the two upper halves take
32-bit writes, the last clause, is the model's inference (notes/assumptions/9.md). -/
def Obligations.WritesToReadOnlySlotsAreIgnored : Prop :=
  ∀ (s : State) (rest : List Transaction) (v : BitVec 64) (x : BitVec 32),
    step { s with host := .regWrite 0x08 32 (x.setWidth 64) :: rest } = .next { s with host := rest } ∧
    step { s with host := .regWrite 0x10 64 v :: rest } = .next { s with host := rest } ∧
    (∀ k : Fin 3, step { s with host := .regWrite (0x28 + 8 * k.val) 64 v :: rest } = .next { s with host := rest }) ∧
    (∀ k : Fin 2, step { s with host := .regWrite (0x04 + 8 * k.val) 32 (x.setWidth 64) :: rest } =
      .next { s with host := rest })

/-- R11 to R16, R31, R78: a host read returns the register's value, or 0 from a reserved slot, and has no side effect.
That the two upper halves take 32-bit reads, the last clause, is the model's inference (notes/assumptions/9.md). -/
def Obligations.RegisterReadsReturnTheValue : Prop :=
  ∀ (s : State) (rest : List Transaction),
    step { s with host := .regRead 0x00 32 :: rest } =
      .next { s with host := rest, replies := s.replies ++ [s.cmd.setWidth 64] } ∧
    step { s with host := .regRead 0x08 32 :: rest } =
      .next { s with host := rest, replies := s.replies ++ [s.status.setWidth 64] } ∧
    step { s with host := .regRead 0x10 64 :: rest } =
      .next { s with host := rest, replies := s.replies ++ [s.errinfo] } ∧
    step { s with host := .regRead 0x18 64 :: rest } =
      .next { s with host := rest, replies := s.replies ++ [s.base] } ∧
    step { s with host := .regRead 0x20 64 :: rest } =
      .next { s with host := rest, replies := s.replies ++ [s.count] } ∧
    (∀ k : Fin 8, step { s with host := .regRead (0x40 + 8 * k.val) 64 :: rest } =
      .next { s with host := rest, replies := s.replies ++ [s.sp.get k] }) ∧
    (∀ k : Fin 3, step { s with host := .regRead (0x28 + 8 * k.val) 64 :: rest } =
      .next { s with host := rest, replies := s.replies ++ [0] }) ∧
    (∀ k : Fin 2, step { s with host := .regRead (0x04 + 8 * k.val) 32 :: rest } =
      .next { s with host := rest, replies := s.replies ++ [0] })

/-- The model's choice for what R31 leaves unspecified (notes/assumptions/10.md): a register access of any other offset
or width, and a write whose value is wider than its register, is refused by name. -/
def Obligations.OtherRegisterAccessesAreRefused : Prop :=
  ∀ (s : State) (rest : List Transaction) (offset width : Nat) (v : BitVec 64),
    ((offset, width) ∉ [(0x00, 32), (0x04, 32), (0x08, 32), (0x0C, 32), (0x10, 64), (0x18, 64), (0x20, 64), (0x28, 64),
        (0x30, 64), (0x38, 64), (0x40, 64), (0x48, 64), (0x50, 64), (0x58, 64), (0x60, 64), (0x68, 64), (0x70, 64),
        (0x78, 64)] →
      step { s with host := .regRead offset width :: rest } = .refused (.badRegisterAccess offset width) ∧
      step { s with host := .regWrite offset width v :: rest } = .refused (.badRegisterAccess offset width)) ∧
    (2 ^ width ≤ v.toNat →
      step { s with host := .regWrite offset width v :: rest } = .refused (.badRegisterAccess offset width))

/-- R180, R31: `CMD`, `STATUS` and `ERRINFO` change only by a host write to `CMD` and by reset: every other transaction
that the machine completes leaves all three alone. R186: with no transaction pending the block is idle and stays as it
is; that a step without one is there at all, and answers the same state, is the model's choice (notes/assumptions/4.md). -/
def Obligations.OnlyCommandsAndResetChangeTheReport : Prop :=
  (∀ (s t : State) (tr : Transaction) (rest : List Transaction), s.host = tr :: rest → step s = .next t →
    (∀ v, tr ≠ .regWrite 0x00 32 v) → tr ≠ .reset → (∀ cw, tr ≠ .resetDuring cw) →
    t.cmd = s.cmd ∧ t.status = s.status ∧ t.errinfo = s.errinfo) ∧
  ∀ s : State, s.host = [] → step s = .next s

/-! ### The datapath (40_datapath_primitives.md) -/

/-- R92, R93: `rotr` and `shr` for the amounts 1 to 31, as arithmetic and bit by bit. -/
def Obligations.RotateAndShiftMoveBits : Prop :=
  ∀ (x : Word) (n : Nat), 1 ≤ n → n ≤ 31 →
    (rotr x n).toNat = (x.toNat / 2 ^ n + x.toNat * 2 ^ (32 - n)) % 2 ^ 32 ∧
    (∀ b < 32, (rotr x n).getLsbD b = x.getLsbD ((b + n) % 32)) ∧
    (shr x n).toNat = x.toNat / 2 ^ n ∧
    ∀ b < 32, (shr x n).getLsbD b = (decide (b + n < 32) && x.getLsbD (b + n))

/-- R94, R95: `Ch` chooses and `Maj` votes, bit by bit. -/
def Obligations.ChChoosesAndMajVotes : Prop :=
  ∀ (x y z : Word) (b : Nat), b < 32 →
    (ch x y z).getLsbD b = (if x.getLsbD b then y.getLsbD b else z.getLsbD b) ∧
    ((maj x y z).getLsbD b = true ↔ 2 ≤ ([x.getLsbD b, y.getLsbD b, z.getLsbD b].count true))

/-- R96 to R99: every result bit of the four sigma functions is the exclusive or of the three source bits. -/
def Obligations.SigmaFunctionsCombineThreeBits : Prop :=
  ∀ (x : Word) (b : Nat), b < 32 →
    (bigSigma0 x).getLsbD b = (x.getLsbD ((b + 2) % 32) ^^ x.getLsbD ((b + 13) % 32) ^^ x.getLsbD ((b + 22) % 32)) ∧
    (bigSigma1 x).getLsbD b = (x.getLsbD ((b + 6) % 32) ^^ x.getLsbD ((b + 11) % 32) ^^ x.getLsbD ((b + 25) % 32)) ∧
    (smallSigma0 x).getLsbD b =
      (x.getLsbD ((b + 7) % 32) ^^ x.getLsbD ((b + 18) % 32) ^^ (decide (b + 3 < 32) && x.getLsbD (b + 3))) ∧
    (smallSigma1 x).getLsbD b =
      (x.getLsbD ((b + 17) % 32) ^^ x.getLsbD ((b + 19) % 32) ^^ (decide (b + 10 < 32) && x.getLsbD (b + 10)))

/-- R102: the arithmetic form of `BSWAP32`, and that it is its own inverse; R18, R103: the shuffle with `BSMASK` is the
byte reversal of every lane. -/
def Obligations.ByteReversalAndTheShuffleMask : Prop :=
  (∀ x : Word, bswap32 x = (x <<< 24) + ((x <<< 8) &&& 0x00FF0000) + ((x >>> 8) &&& 0x0000FF00) + (x >>> 24) ∧
    bswap32 (bswap32 x) = x) ∧
  (List.range 32).map bsMask = [3, 2, 1, 0, 7, 6, 5, 4, 3, 2, 1, 0, 7, 6, 5, 4, 3, 2, 1, 0, 7, 6, 5, 4, 3, 2, 1, 0,
    7, 6, 5, 4] ∧
  ∀ V : Vec, shuf V bsMask = bswapV V

/-- R105 to R107: the three-stage network computes the transpose. -/
def Obligations.NetworkComputesTheTranspose : Prop :=
  ∀ M : Mat, networkOut (networkU (networkT M)) = transpose8 M

/-- R109: the two self-inverse laws on registers. -/
def Obligations.TransposeAndByteReversalAreSelfInverse : Prop :=
  (∀ M : Mat, transpose8 (transpose8 M) = M) ∧ ∀ V : Vec, bswapV (bswapV V) = V

/-- R110: a round, with the schedule expansion before it, keeps lanes apart: what a lane of `a .. h` and of the window
holds afterwards depends on that lane alone. -/
def Obligations.RoundsKeepLanesApart : Prop :=
  ∀ (i : Nat) (x y : Scratch) (k : Fin 8),
    (∀ r : Fin 8, (x.working.get r).get k = (y.working.get r).get k) →
    (∀ j : Fin 16, (x.w.slot j).get k = (y.w.slot j).get k) →
    (∀ r : Fin 8, ((roundStep i x).working.get r).get k = ((roundStep i y).working.get r).get k) ∧
      ∀ j : Fin 16, ((roundStep i x).w.slot j).get k = ((roundStep i y).w.slot j).get k

/-- R148: the sixteen slots are updated one after another, in ascending order, each from the window as it then stands:
slot `j` becomes old `j` plus `σ1` of slot `j + 14` plus slot `j + 9` plus `σ0` of slot `j + 1`, indices modulo 16, where a
slot below `j` is the new one. -/
def Obligations.ScheduleExpandsInPlace : Prop :=
  ∀ (w : Bank) (k : Fin 8) (j : Fin 16),
    let now : Nat → Word := fun d =>
      if j.val + d < 16 then (w.slot (Fin.ofNat 16 (j.val + d))).get k
      else ((expandSchedule w).slot (Fin.ofNat 16 (j.val + d))).get k
    ((expandSchedule w).slot j).get k = now 0 + smallSigma1 (now 14) + now 9 + smallSigma0 (now 1)

/-! ### Memory (20_memory.md) -/

/-- R42: `MemRead` and `MemWrite` are little-endian, for every width. -/
def Obligations.MemoryIsLittleEndian : Prop :=
  (∀ (m : Memory) (a n : Nat), memRead m a n = ((List.range n).map fun i => (readByte m (a + i)).toNat * 256 ^ i).sum) ∧
  (∀ (m : Memory) (a n v : Nat), Memory.wf m = true → a + n ≤ 2 ^ 64 →
    (∀ i < n, readByte (memWrite m a n v) (a + i) = BitVec.ofNat 8 (v >>> (8 * i))) ∧
      ∀ x, x < a ∨ a + n ≤ x → readByte (memWrite m a n v) x = readByte m x)

/-- R43, R44: lane `k` is the word at `A + 4k` and bits `[32k+31:32k]` of the 32 bytes as one integer; row `r` of a matrix
is the vector at `A + 32r`. -/
def Obligations.VectorsAndMatricesInMemory : Prop :=
  ∀ (m : Memory) (a : Nat) (r k : Fin 8),
    (readVec m a).get k = readWord m (a + 4 * k.val) ∧
    ((readVec m a).get k).toNat = memRead m a 32 / 2 ^ (32 * k.val) % 2 ^ 32 ∧
    ((readMat m a).get r).get k = readWord m (a + 32 * r.val + 4 * k.val)

/-- R45: a byte-reversed word of memory is the big-endian reading of its four bytes. -/
def Obligations.MessageWordsAreBigEndian : Prop :=
  ∀ (m : Memory) (a : Nat), (bswap32 (readWord m a)).toNat =
    16777216 * (readByte m a).toNat + 65536 * (readByte m (a + 1)).toNat + 256 * (readByte m (a + 2)).toNat +
      (readByte m (a + 3)).toNat

/-- R51: a write changes only its byte and a read returns the last value written; the memory stays in its canonical
form. -/
def Obligations.WritesChangeOneByte : Prop :=
  ∀ (m : Memory) (a : Nat) (b : Byte), Memory.wf m = true → a < 2 ^ 64 →
    Memory.wf (writeByte m a b) = true ∧ ∀ x, readByte (writeByte m a b) x = if x = a then b else readByte m x

/-- R40: the host reaches the same bytes as the commands do, where there is ordinary memory. That it does so byte by byte,
that an address without memory is a fault and a device's address a refusal are the model's choices
(notes/assumptions/8.md). -/
def Obligations.HostMemoryAccesses : Prop :=
  ∀ (s : State) (rest : List Transaction) (a : Addr) (b : Byte),
    (isPresent s.map a.toNat = true → isDevice s.map a.toNat = false →
      step { s with host := .memWrite a b :: rest } = .next { s with host := rest, mem := writeByte s.mem a.toNat b } ∧
      step { s with host := .memRead a :: rest } =
        .next { s with host := rest, replies := s.replies ++ [(readByte s.mem a.toNat).setWidth 64] }) ∧
    (isPresent s.map a.toNat = false →
      step { s with host := .memWrite a b :: rest } = .fault (.hostNoMemory a) ∧
      step { s with host := .memRead a :: rest } = .fault (.hostNoMemory a)) ∧
    (isDevice s.map a.toNat = true →
      step { s with host := .memWrite a b :: rest } = .refused (.hostDeviceAccess a) ∧
      step { s with host := .memRead a :: rest } = .refused (.hostDeviceAccess a))

/-! ### Faults (60_exceptions.md) -/

/-- R121: the checks of NORMALIZE, in their order, with the fault and the `ERRINFO` of each; a fault changes nothing
else. -/
def Obligations.NormalizeFaultTable : Prop :=
  ∀ s : State,
    (s.count.toNat = 0 ∨ s.count.toNat % 8 ≠ 0 →
      exec .normalize s = .next (faultedState 0x00000022 s.count s)) ∧
    (s.count.toNat ≠ 0 → s.count.toNat % 8 = 0 →
      (s.base.toNat % 32 ≠ 0 → exec .normalize s = .next (faultedState 0x00000032 s.base s)) ∧
      (s.base.toNat % 32 = 0 →
        (2 ^ 64 < s.base.toNat + 4 * s.count.toNat →
          exec .normalize s = .next (faultedState 0x00000042 s.base s)) ∧
        (s.base.toNat + 4 * s.count.toNat ≤ 2 ^ 64 →
          ∀ x, LowestIn (BlockedForWrite s.map) s.base.toNat (4 * s.count.toNat) x →
            exec .normalize s = .next (faultedState 0x00000052 (BitVec.ofNat 64 x) s))))

/-- R131: the checks of TRANSPOSE, in their order. -/
def Obligations.TransposeFaultTable : Prop :=
  ∀ s : State,
    (s.base.toNat % 32 ≠ 0 → exec .transpose s = .next (faultedState 0x00000032 s.base s)) ∧
    (s.base.toNat % 32 = 0 →
      (2 ^ 64 < s.base.toNat + 256 → exec .transpose s = .next (faultedState 0x00000042 s.base s)) ∧
      (s.base.toNat + 256 ≤ 2 ^ 64 →
        ∀ x, LowestIn (BlockedForWrite s.map) s.base.toNat 256 x →
          exec .transpose s = .next (faultedState 0x00000052 (BitVec.ofNat 64 x) s)))

/-- R142: the six checks of COMPRESS with `COUNT > 0`, in their order. -/
def Obligations.CompressFaultTable : Prop :=
  ∀ s : State, s.count.toNat ≠ 0 →
    let misaligned (k : Fin 8) : Prop := (s.sp.get k).toNat % 32 ≠ 0
    let tooLong (k : Fin 8) : Prop := 2 ^ 64 < (s.sp.get k).toNat + 64 * s.count.toNat
    let blocked (k : Fin 8) : Prop := ∃ x, (s.sp.get k).toNat ≤ x ∧ x < (s.sp.get k).toNat + 64 * s.count.toNat ∧
      BlockedForRead s.map x
    (s.base.toNat % 32 ≠ 0 → exec .compress s = .next (faultedState 0x00000032 s.base s)) ∧
    (s.base.toNat % 32 = 0 →
      (∀ k, misaligned k → (∀ j < k, ¬ misaligned j) →
        exec .compress s = .next (faultedState 0x00000032 (s.sp.get k) s)) ∧
      ((∀ k, ¬ misaligned k) →
        (2 ^ 64 < s.base.toNat + 256 → exec .compress s = .next (faultedState 0x00000042 s.base s)) ∧
        (s.base.toNat + 256 ≤ 2 ^ 64 →
          (∀ k, tooLong k → (∀ j < k, ¬ tooLong j) →
            exec .compress s = .next (faultedState 0x00000042 (s.sp.get k) s)) ∧
          ((∀ k, ¬ tooLong k) →
            (∀ x, LowestIn (BlockedForWrite s.map) s.base.toNat 256 x →
              exec .compress s = .next (faultedState 0x00000052 (BitVec.ofNat 64 x) s)) ∧
            ((∀ x, s.base.toNat ≤ x → x < s.base.toNat + 256 → ¬ BlockedForWrite s.map x) →
              ∀ k x, (∀ j < k, ¬ blocked j) →
                LowestIn (BlockedForRead s.map) (s.sp.get k).toNat (64 * s.count.toNat) x →
                exec .compress s = .next (faultedState 0x00000052 (BitVec.ofNat 64 x) s))))))

/-- R173: `BAD_LENGTH` is NORMALIZE's alone, and only for a `COUNT` that is zero or not a multiple of 8. -/
def Obligations.BadLengthIsNormalizeAlone : Prop :=
  ∀ (i : Instr) (s t : State), exec i s = .next t →
    (t.status = 0x00000022 ↔ i = .normalize ∧ (s.count.toNat = 0 ∨ s.count.toNat % 8 ≠ 0)) ∧
      (t.status = 0x00000022 → t.errinfo = s.count)

/-- R170, R179: a command that ended as a fault has accessed no memory and changed nothing but `STATUS`, `ERRINFO` and
the sequencer's phase, which is idle. -/
def Obligations.FaultsArePrecise : Prop :=
  ∀ (i : Instr) (s t : State), exec i s = .next t → statusErr t.status = true →
    t = faultedState t.status t.errinfo s

/-- R15, R16, R178: every command that completes leaves one of the six legal reports: success with `ERRINFO` 0, or a
fault of one of the codes 2 to 5 that a command's checks raise (code 1 is the decoder's). -/
def Obligations.EveryCommandWritesItsReport : Prop :=
  ∀ (i : Instr) (s t : State), exec i s = .next t → t.seq.phase = .idle ∧
    ((t.status = 0x00000001 ∧ t.errinfo = 0) ∨
      t.status ∈ [0x00000022#32, 0x00000032#32, 0x00000042#32, 0x00000052#32])

/-- R157, R170: a command stops the model in one case alone, which is the model's choice (notes/assumptions/7.md): it
passed its checks, and some address of its footprint is not ordinary memory. It never ends in a fault of the model. -/
def Obligations.CommandsAlwaysAnswer : Prop :=
  ∀ (i : Instr) (s : State), (∃ t, exec i s = .next t) ∨
    (exec i s = .refused .deviceFootprint ∧ check i s = none ∧
      ∃ sp ∈ footprint i s, ∃ x, sp.start ≤ x ∧ x < sp.start + sp.len ∧ isDevice s.map x = true)

/-- R51, the model's choice (notes/assumptions/7.md): any command that passes its checks is refused when some range of its
footprint holds an address that is not ordinary memory: NORMALIZE's buffer, TRANSPOSE's matrix, COMPRESS's State range or
any of its streams. -/
def Obligations.DeviceFootprintIsRefused : Prop :=
  ∀ (i : Instr) (s : State), check i s = none →
    (∃ sp ∈ footprint i s, ∃ x, sp.start ≤ x ∧ x < sp.start + sp.len ∧ isDevice s.map x = true) →
    exec i s = .refused .deviceFootprint

/-! ### NORMALIZE (41_normalize.md) -/

/-- R122, R123: a NORMALIZE whose checks pass completes; every byte of the buffer moves to the mirrored place of its
word, every word is the `BSWAP32` of what it was, no byte outside changes, and no register but `STATUS` and `ERRINFO`. -/
def Obligations.NormalizeReversesEveryWord : Prop :=
  ∀ s : State, NormalizeReady s → Memory.wf s.mem = true →
    ∃ t, exec .normalize s = .next t ∧ EndedWell t ∧ KeepsOperands s t ∧
      (∀ n < s.count.toNat, ∀ j < 4, readByte t.mem (s.base.toNat + 4 * n + j) =
        readByte s.mem (s.base.toNat + 4 * n + 3 - j)) ∧
      (∀ n < s.count.toNat, readWord t.mem (s.base.toNat + 4 * n) = bswap32 (readWord s.mem (s.base.toNat + 4 * n))) ∧
      MemSameOutside s t s.base.toNat (4 * s.count.toNat)

/-- R124: two NORMALIZE commands with the same `BASE` and `COUNT` leave all of memory as it was. -/
def Obligations.NormalizeTwiceRestoresMemory : Prop :=
  ∀ s : State, NormalizeReady s → Memory.wf s.mem = true →
    ∃ t u, exec .normalize s = .next t ∧ exec .normalize t = .next u ∧ u.mem = s.mem ∧ EndedWell u ∧ KeepsOperands s u

/-- R125: the memory events of a NORMALIZE: chunks in ascending order, one read and then one write of each. -/
def Obligations.NormalizeAccessOrder : Prop :=
  ∀ s : State, NormalizeReady s →
    ∃ t, exec .normalize s = .next t ∧ t.events = s.events ++ (List.range (s.count.toNat / 8)).flatMap fun c =>
      [.read (s.base.toNat + 32 * c), .write (s.base.toNat + 32 * c)]

/-! ### TRANSPOSE (42_transpose.md) -/

/-- R132: a TRANSPOSE whose checks pass completes; the word at row `i`, lane `j` is the word that was at row `j`, lane
`i`, no byte outside the 256 changes, and no register but `STATUS` and `ERRINFO`. -/
def Obligations.TransposeSwapsRowsAndLanes : Prop :=
  ∀ s : State, TransposeReady s → Memory.wf s.mem = true →
    ∃ t, exec .transpose s = .next t ∧ EndedWell t ∧ KeepsOperands s t ∧
      (∀ i < 8, ∀ j < 8, readWord t.mem (s.base.toNat + 32 * i + 4 * j) =
        readWord s.mem (s.base.toNat + 32 * j + 4 * i)) ∧
      MemSameOutside s t s.base.toNat 256

/-- R134: two TRANSPOSE commands with the same `BASE` leave all of memory as it was. -/
def Obligations.TransposeTwiceRestoresMemory : Prop :=
  ∀ s : State, TransposeReady s → Memory.wf s.mem = true →
    ∃ t u, exec .transpose s = .next t ∧ exec .transpose t = .next u ∧ u.mem = s.mem ∧ EndedWell u ∧ KeepsOperands s u

/-- R133: the memory events of a TRANSPOSE: all eight rows are read, in order, before any is written, in order. -/
def Obligations.TransposeAccessOrder : Prop :=
  ∀ s : State, TransposeReady s →
    ∃ t, exec .transpose s = .next t ∧ t.events = s.events ++
      (List.range 8).map (fun r => .read (s.base.toNat + 32 * r)) ++
      (List.range 8).map (fun r => .write (s.base.toNat + 32 * r))

/-! ### COMPRESS (43_compress.md) -/

/-- R141: with `COUNT = 0` a COMPRESS does nothing, whatever its other operands hold: no check, no access, memory
unchanged, and it ends well. -/
def Obligations.CompressOfZeroBlocksDoesNothing : Prop :=
  ∀ s : State, s.count = 0 → ∃ t, exec .compress s = .next t ∧ EndedWell t ∧ KeepsOperands s t ∧ t.mem = s.mem ∧
    t.events = s.events

/-- R153: with `COUNT > 0`, the checks passed and the State range apart from the streams, a COMPRESS completes; column
`k` of the State matrix is the scalar compression function applied `COUNT` times to that column over the consecutive
blocks of stream `k`; no byte outside the State matrix changes, and no register but `STATUS` and `ERRINFO`. -/
def Obligations.CompressIsScalarSha256PerLane : Prop :=
  ∀ s : State, s.count.toNat ≠ 0 → CompressReady s → StreamsApart s → Memory.wf s.mem = true →
    ∃ t, exec .compress s = .next t ∧ EndedWell t ∧ KeepsOperands s t ∧
      (∀ k : Fin 8, stateColumn t.mem s.base.toNat k =
        chainBlocks s.count.toNat (stateColumn s.mem s.base.toNat k) (streamBytes s k)) ∧
      MemSameOutside s t s.base.toNat 256

/-- R154: the schedule `W` of a block is the block's sixteen big-endian words and then the standard recurrence; and from a
window that holds the sixteen words of each lane's block, slot `i mod 16` of the window that round `i` leaves, which is
the one its body read, holds `W[i]` in every lane. -/
def Obligations.WindowHoldsTheSchedule : Prop :=
  (∀ (B : Nat → Byte) (t : Nat),
    (t < 16 → scheduleWord B t = B (4 * t) ++ B (4 * t + 1) ++ B (4 * t + 2) ++ B (4 * t + 3)) ∧
    (16 ≤ t → t < 64 → scheduleWord B t = smallSigma1 (scheduleWord B (t - 2)) + scheduleWord B (t - 7) +
      smallSigma0 (scheduleWord B (t - 15)) + scheduleWord B (t - 16))) ∧
  ∀ (x : Nat → Scratch) (B : Fin 8 → Nat → Byte),
    (∀ (k : Fin 8) (j : Fin 16), ((x 0).w.slot j).get k = blockWord (B k) j.val) →
    (∀ i < 64, x (i + 1) = roundStep i (x i)) →
    ∀ i < 64, ∀ k : Fin 8, ((x (i + 1)).w.slot (Fin.ofNat 16 i)).get k = scheduleWord (B k) i

/-- R149: what a round without expansion does to `T1`, `T2` and the working registers, from their values at its start. -/
def Obligations.RoundBodyIsTheSha256Round : Prop :=
  ∀ (i : Nat) (x : Scratch) (k : Fin 8), i < 64 →
    let t1 : Word := bigSigma1 (x.e.get k) + ch (x.e.get k) (x.f.get k) (x.g.get k) + x.h.get k + roundConstant i +
      (x.w.slot (Fin.ofNat 16 i)).get k
    let t2 : Word := bigSigma0 (x.a.get k) + maj (x.a.get k) (x.b.get k) (x.c.get k)
    let y := roundBody i x
    y.T1.get k = t1 ∧ y.T2.get k = t2 ∧ y.a.get k = t1 + t2 ∧ y.b.get k = x.a.get k ∧ y.c.get k = x.b.get k ∧ y.d.get k = x.c.get k ∧
      y.e.get k = x.d.get k + t1 ∧ y.f.get k = x.e.get k ∧ y.g.get k = x.f.get k ∧ y.h.get k = x.g.get k ∧ y.w = x.w

/-- R155: column `j` of the result depends only on column `j` before and on the `64·COUNT` bytes of stream `j`: two
COMPRESS commands of the same length that agree on these, in memories and operands otherwise arbitrary, agree on
column `j` afterwards. -/
def Obligations.LanesAreIndependent : Prop :=
  ∀ (s s' : State) (j : Fin 8), s.count.toNat ≠ 0 → s'.count = s.count →
    CompressReady s → StreamsApart s → Memory.wf s.mem = true →
    CompressReady s' → StreamsApart s' → Memory.wf s'.mem = true →
    stateColumn s'.mem s'.base.toNat j = stateColumn s.mem s.base.toNat j →
    (∀ x < 64 * s.count.toNat, streamBytes s' j x = streamBytes s j x) →
    ∃ t t', exec .compress s = .next t ∧ exec .compress s' = .next t' ∧
      stateColumn t'.mem s'.base.toNat j = stateColumn t.mem s.base.toNat j

/-- R156: one COMPRESS with `COUNT = n1 + n2` gives the same memory as one with `COUNT = n1` followed, after the host has
added `64·n1` to every `SP[k]`, by one with `COUNT = n2`. -/
def Obligations.TwoCommandsChainLikeOne : Prop :=
  ∀ (s : State) (n1 n2 : BitVec 64), n1.toNat ≠ 0 → n2.toNat ≠ 0 → s.count.toNat = n1.toNat + n2.toNat →
    CompressReady s → StreamsApart s → Memory.wf s.mem = true →
    ∃ t u v, exec .compress s = .next t ∧ exec .compress { s with count := n1 } = .next u ∧
      exec .compress { u with
        count := n2, sp := Oct.ofFn fun k => u.sp.get k + BitVec.ofNat 64 (64 * n1.toNat) } = .next v ∧
      v.mem = t.mem ∧ EndedWell t ∧ EndedWell v

/-- R158: the memory events of a COMPRESS: for each block sixteen stream reads, `k` outer and the half inner, then the
eight State rows read, then written. -/
def Obligations.CompressAccessOrder : Prop :=
  ∀ s : State, s.count.toNat ≠ 0 → CompressReady s →
    ∃ t, exec .compress s = .next t ∧ t.events = s.events ++ (List.range s.count.toNat).flatMap fun blk =>
      ((List.finRange 8).flatMap fun k => [.read ((s.sp.get k).toNat + 64 * blk),
        .read ((s.sp.get k).toNat + 64 * blk + 32)]) ++
      (List.range 8).map (fun r => .read (s.base.toNat + 32 * r)) ++
      (List.range 8).map (fun r => .write (s.base.toNat + 32 * r))

/-- R52 leaves the result of a COMPRESS whose State range overlaps a stream unspecified. The model's reading
(notes/assumptions/6.md): it completes like any other, and only the State matrix is in doubt. -/
def Obligations.OverlappingCompressCompletes : Prop :=
  ∀ s : State, s.count.toNat ≠ 0 → CompressReady s → Memory.wf s.mem = true →
    ∃ t, exec .compress s = .next t ∧ EndedWell t ∧ KeepsOperands s t ∧ Memory.wf t.mem = true ∧
      MemSameOutside s t s.base.toNat 256

/-! ### The whole machine -/

/-- R11, R12, R13: no command writes an operand register (nor `CMD`, nor anything of the host's). -/
def Obligations.NoCommandWritesItsOperands : Prop :=
  ∀ (i : Instr) (s t : State), exec i s = .next t → KeepsOperands s t

/-- R47, R50: no command writes a byte outside its write footprint, whatever its outcome. -/
def Obligations.CommandsWriteInsideTheirFootprint : Prop :=
  ∀ (i : Instr) (s t : State), Memory.wf s.mem = true → exec i s = .next t →
    Memory.wf t.mem = true ∧ MemSameOutside s t s.base.toNat (writtenBytes i s)

/-- R50: every access of a command is at a multiple of 32 and its 32 bytes lie in the command's footprint; a write's in
a range the command writes. -/
def Obligations.AccessesStayInsideTheFootprint : Prop :=
  ∀ (i : Instr) (s t : State), exec i s = .next t → ∃ new, t.events = s.events ++ new ∧ ∀ e ∈ new,
    match e with
    | .read a => a % 32 = 0 ∧ ∃ sp ∈ footprint i s, sp.start ≤ a ∧ a + 32 ≤ sp.start + sp.len
    | .write a => a % 32 = 0 ∧ ∃ sp ∈ footprint i s, sp.writes = true ∧ sp.start ≤ a ∧ a + 32 ≤ sp.start + sp.len

/-- R7, R51, R157: a command that does its work is a function of its operands and of the contents of its footprint: two
machines that agree on these agree on every byte the command writes, whatever else they hold. -/
def Obligations.ResultsDependOnTheFootprintAlone : Prop :=
  ∀ (i : Instr) (s s' t t' : State), Memory.wf s.mem = true → Memory.wf s'.mem = true →
    s'.base = s.base → s'.count = s.count → s'.sp = s.sp → s'.map = s.map →
    (∀ sp ∈ footprint i s, ∀ x, sp.start ≤ x → x < sp.start + sp.len → readByte s'.mem x = readByte s.mem x) →
    (i = .compress → s.count.toNat ≠ 0 → StreamsApart s) →
    exec i s = .next t → exec i s' = .next t' →
    t'.status = t.status ∧ t'.errinfo = t.errinfo ∧
      ∀ x, s.base.toNat ≤ x → x < s.base.toNat + writtenBytes i s → readByte t'.mem x = readByte t.mem x

/-- R30, R191: what reset leaves, as far as the spec gives it: `CMD`, `STATUS`, `ERRINFO` zero, the block idle; and the
sixty-four round constants of R17's table, which reset does not change. -/
def Obligations.ResetLeavesTheGivenValues : Prop :=
  State.reset.cmd = 0 ∧ State.reset.status = 0 ∧ State.reset.errinfo = 0 ∧ State.reset.seq.phase = .idle ∧
    (List.range 64).map roundConstant =
      [0x428a2f98, 0x71374491, 0xb5c0fbcf, 0xe9b5dba5, 0x3956c25b, 0x59f111f1, 0x923f82a4, 0xab1c5ed5] ++
      [0xd807aa98, 0x12835b01, 0x243185be, 0x550c7dc3, 0x72be5d74, 0x80deb1fe, 0x9bdc06a7, 0xc19bf174] ++
      [0xe49b69c1, 0xefbe4786, 0x0fc19dc6, 0x240ca1cc, 0x2de92c6f, 0x4a7484aa, 0x5cb0a9dc, 0x76f988da] ++
      [0x983e5152, 0xa831c66d, 0xb00327c8, 0xbf597fc7, 0xc6e00bf3, 0xd5a79147, 0x06ca6351, 0x14292967] ++
      [0x27b70a85, 0x2e1b2138, 0x4d2c6dfc, 0x53380d13, 0x650a7354, 0x766a0abb, 0x81c2c92e, 0x92722c85] ++
      [0xa2bfe8a1, 0xa81a664b, 0xc24b8b70, 0xc76c51a3, 0xd192e819, 0xd6990624, 0xf40e3585, 0x106aa070] ++
      [0x19a4c116, 0x1e376c08, 0x2748774c, 0x34b0bcb5, 0x391c0cb3, 0x4ed8aa4a, 0x5b9cca4f, 0x682e6ff3] ++
      [0x748f82ee, 0x78a5636f, 0x84c87814, 0x8cc70208, 0x90befffa, 0xa4506ceb, 0xbef9a3f7, 0xc67178f2]

/-- R190, R191: the reset event while the block is idle: `CMD`, `STATUS`, `ERRINFO` are zero, the block is idle, memory
is not changed; of the operand registers nothing is said. -/
def Obligations.ResetEventClearsTheReport : Prop :=
  ∀ (s : State) (rest : List Transaction), ∃ t, step { s with host := .reset :: rest } = .next t ∧
    t.cmd = 0 ∧ t.status = 0 ∧ t.errinfo = 0 ∧ t.seq.phase = .idle ∧ t.mem = s.mem ∧ t.map = s.map ∧ t.host = rest

/-- R190, R191, R192: a reset while a command runs: the host's `CMD` write has ended, `CMD`, `STATUS` and `ERRINFO` read 0,
the block is idle, and no byte outside the write footprint changes; of the bytes inside nothing is said, and a COMPRESS
with `COUNT = 0` has none. The last three clauses are the model's inference and choice (notes/assumptions/11.md): a command
that fails a check, and a word that is no command, write no memory, so there the whole memory is unchanged; and a
footprint that is not ordinary memory is refused here as it is for the whole command. -/
def Obligations.ResetDuringACommand : Prop :=
  ∀ (s : State) (rest : List Transaction) (cw : Word), Memory.wf s.mem = true →
    let out := step { s with host := .resetDuring cw :: rest }
    let emptied (t : State) : Prop := t.cmd = 0 ∧ t.status = 0 ∧ t.errinfo = 0 ∧ t.seq.phase = .idle ∧ t.host = rest ∧
      t.replies = s.replies ∧ t.map = s.map ∧ Memory.wf t.mem = true
    (∀ i, decode cw = .ok i →
      (match i with
        | .normalize => NormalizeReady s
        | .transpose => TransposeReady s
        | .compress => s.count.toNat ≠ 0 ∧ CompressReady s) →
      ∃ t, out = .next t ∧ emptied t ∧ MemSameOutside s t s.base.toNat (writtenBytes i s)) ∧
    (decode cw = .ok .compress → s.count.toNat = 0 → ∃ t, out = .next t ∧ emptied t ∧ t.mem = s.mem) ∧
    (∀ i, decode cw = .ok i → check i s ≠ none → ∃ t, out = .next t ∧ emptied t ∧ t.mem = s.mem) ∧
    (cw ≠ 0x00000001 → cw ≠ 0x00000002 → cw ≠ 0x00000003 → ∃ t, out = .next t ∧ emptied t ∧ t.mem = s.mem) ∧
    (∀ i, decode cw = .ok i → check i s = none →
      (∃ sp ∈ footprint i s, ∃ x, sp.start ≤ x ∧ x < sp.start + sp.len ∧ isDevice s.map x = true) →
      out = .refused .deviceFootprint)

/-- The invariant holds at reset. -/
def Obligations.InvariantHoldsAtReset : Prop := MachineInv State.reset

/-- Every step keeps the invariant: memory in canonical form, `STATUS` one of its seven legal values (R15), `ERRINFO`
zero unless a fault is reported (R16), the block idle between transactions (R25). -/
def Obligations.EveryStepKeepsTheInvariant : Prop :=
  ∀ s t : State, MachineInv s → step s = .next t → MachineInv t

/-- R9, R25: the two levels of description agree: running the phases from `CHECK`, as many as the command has, gives the
state that the command as one transition gives; and the block is not idle before the last of them. How the model splits
the two levels: notes/assumptions/13.md. -/
def Obligations.PhasesRefineTheCommand : Prop :=
  ∀ (s t : State) (cw : Word) (i : Instr), decode cw = .ok i → exec i (beginCommand cw s) = .next t →
    ticks (phaseCount i (beginCommand cw s)) (beginCommand cw s) = t ∧
      ∀ n < phaseCount i (beginCommand cw s), (ticks n (beginCommand cw s)).seq.phase ≠ .idle

/-- R25, R198: every command, of any command word, ends: from `CHECK` the block is idle again after a number of phases
that `COUNT` bounds. That a footprint which is not ordinary memory is stepped like any other at this level is the model's
choice (notes/assumptions/13.md). -/
def Obligations.EveryCommandEnds : Prop :=
  ∀ s : State, s.seq.phase = .check → ∃ n ≤ 3 + 69 * s.count.toNat, (ticks n s).seq.phase = .idle

end
end

