-- ==== Sys2Proof/Laws/Oct.lean ====
section
/-! SUPPORT. The small lemmas of the fixed-size groups: reading an element that was built, replaced or read, and
equality element by element. -/

namespace Sys2Proof

/-- A statement about the eight indices is eight statements. -/
theorem forall_fin8 {P : Fin 8 → Prop} : (∀ k, P k) ↔ P 0 ∧ P 1 ∧ P 2 ∧ P 3 ∧ P 4 ∧ P 5 ∧ P 6 ∧ P 7 := by
  refine ⟨fun h => ⟨h 0, h 1, h 2, h 3, h 4, h 5, h 6, h 7⟩, fun h k => ?_⟩
  obtain ⟨h0, h1, h2, h3, h4, h5, h6, h7⟩ := h
  fin_cases k <;> assumption

@[simp] theorem Oct.get_ofFn {α : Type} (f : Fin 8 → α) (k : Fin 8) : (Oct.ofFn f).get k = f k := by
  revert k; simp only [forall_fin8]; exact ⟨rfl, rfl, rfl, rfl, rfl, rfl, rfl, rfl⟩

theorem Oct.ext_get {α : Type} {v w : Oct α} (h : ∀ k, v.get k = w.get k) : v = w := by
  obtain ⟨h0, h1, h2, h3, h4, h5, h6, h7⟩ := forall_fin8.1 h
  cases v; cases w
  simp only [Oct.get] at h0 h1 h2 h3 h4 h5 h6 h7
  simp_all

theorem Oct.ext_iff_get {α : Type} {v w : Oct α} : v = w ↔ ∀ k, v.get k = w.get k :=
  ⟨fun h _ => h ▸ rfl, Oct.ext_get⟩

@[simp] theorem Oct.ofFn_get {α : Type} (v : Oct α) : (Oct.ofFn fun k => v.get k) = v := Oct.ext_get fun _ => by simp

theorem Oct.get_set {α : Type} (v : Oct α) (k l : Fin 8) (x : α) :
    (v.set k x).get l = if l = k then x else v.get l := by
  revert k l; simp only [forall_fin8]; simp [Oct.get, Oct.set]

@[simp] theorem Oct.get_x0 {α : Type} (v : Oct α) : v.get 0 = v.x0 := rfl
@[simp] theorem Oct.get_x1 {α : Type} (v : Oct α) : v.get 1 = v.x1 := rfl
@[simp] theorem Oct.get_x2 {α : Type} (v : Oct α) : v.get 2 = v.x2 := rfl
@[simp] theorem Oct.get_x3 {α : Type} (v : Oct α) : v.get 3 = v.x3 := rfl
@[simp] theorem Oct.get_x4 {α : Type} (v : Oct α) : v.get 4 = v.x4 := rfl
@[simp] theorem Oct.get_x5 {α : Type} (v : Oct α) : v.get 5 = v.x5 := rfl
@[simp] theorem Oct.get_x6 {α : Type} (v : Oct α) : v.get 6 = v.x6 := rfl
@[simp] theorem Oct.get_x7 {α : Type} (v : Oct α) : v.get 7 = v.x7 := rfl

theorem mem_octIndices (k : Fin 8) : k ∈ octIndices := by revert k; decide

/-- Reading a slot after replacing one. -/
theorem Bank.slot_setSlot (B : Bank) (j l : Fin 16) (V : Vec) :
    (B.setSlot j V).slot l = if l = j then V else B.slot l := by
  unfold Bank.setSlot Bank.slot
  split <;> split <;> simp only [Oct.get_set, Fin.ext_iff] <;> split <;> (try split) <;> first | rfl | omega

end Sys2Proof
end

