-- ==== Sys2Proof/Laws/Memory.lean ====
section
/-! SUPPORT. The laws of memory: the canonical form, what a read gives after a write, and that equal reads make equal
memories. Every write of the machine, from a byte to a matrix, has one `Fills` lemma that says all of it. -/

namespace Sys2Proof.Machine

/-! ### Bytes and words -/

theorem append_byte_toNat {n : Nat} (x : BitVec n) (b : Byte) : (x ++ b).toNat = 256 * x.toNat + b.toNat := by
  rw [BitVec.toNat_append, ← Nat.shiftLeft_add_eq_or_of_lt b.isLt, Nat.shiftLeft_eq, Nat.mul_comm]

/-- A word from its four bytes, as numbers (R42). -/
theorem append_bytes_toNat (b0 b1 b2 b3 : Byte) :
    (b3 ++ b2 ++ b1 ++ b0 : Word).toNat =
      b0.toNat + 256 * b1.toNat + 65536 * b2.toNat + 16777216 * b3.toNat := by
  simp only [append_byte_toNat]
  omega

theorem wordByte_toNat (x : Word) (j : Nat) : (wordByte x j).toNat = x.toNat / 256 ^ j % 256 := by
  simp only [wordByte, BitVec.extractLsb'_toNat, Nat.shiftRight_eq_div_pow]
  rw [show (256 : Nat) = 2 ^ 8 by decide, ← pow_mul]

/-- A word is its four bytes, the least significant last. -/
theorem word_eq_bytes (x : Word) : x = wordByte x 3 ++ wordByte x 2 ++ wordByte x 1 ++ wordByte x 0 := by
  apply BitVec.eq_of_toNat_eq
  have hx := x.isLt
  rw [append_bytes_toNat]
  simp only [wordByte_toNat]
  omega

theorem readWord_eq_bytes (m : Memory) (a : Nat) :
    readWord m a = readByte m (a + 3) ++ readByte m (a + 2) ++ readByte m (a + 1) ++ readByte m a := by
  apply BitVec.eq_of_toNat_eq
  rw [append_bytes_toNat]
  have h0 := (readByte m a).isLt; have h1 := (readByte m (a + 1)).isLt
  have h2 := (readByte m (a + 2)).isLt; have h3 := (readByte m (a + 3)).isLt
  simp only [readWord, memRead, BitVec.toNat_ofNat, Nat.add_assoc, Nat.reduceAdd]
  omega

/-- Byte `j` of the word read at `a` is the byte at `a + j`. -/
theorem wordByte_readWord (m : Memory) (a j : Nat) (hj : j < 4) : wordByte (readWord m a) j = readByte m (a + j) := by
  apply BitVec.eq_of_toNat_eq
  rw [wordByte_toNat, readWord_eq_bytes, append_bytes_toNat]
  have h0 := (readByte m a).isLt; have h1 := (readByte m (a + 1)).isLt
  have h2 := (readByte m (a + 2)).isLt; have h3 := (readByte m (a + 3)).isLt
  obtain rfl | rfl | rfl | rfl : j = 0 ∨ j = 1 ∨ j = 2 ∨ j = 3 := by omega
  all_goals simp only [Nat.reducePow, Nat.add_zero, Nat.div_one]; omega

/-- A word whose four bytes stand at `a` is what a read of `a` gives. -/
theorem readWord_eq_of_bytes {m : Memory} {a : Nat} {x : Word} (h : ∀ j < 4, readByte m (a + j) = wordByte x j) :
    readWord m a = x := by
  rw [readWord_eq_bytes, word_eq_bytes x, h 3 (by omega), h 2 (by omega), h 1 (by omega)]
  exact congrArg _ (h 0 (by omega))

/-- Reads of the same four bytes give the same word. -/
theorem readWord_congr {m m' : Memory} {a a' : Nat} (h : ∀ j < 4, readByte m (a + j) = readByte m' (a' + j)) :
    readWord m a = readWord m' a' :=
  readWord_eq_of_bytes fun j hj => by rw [h j hj, wordByte_readWord _ _ _ hj]

/-! ### The canonical form -/

theorem readByte_below {lo : Nat} {m : Memory} (h : memoryWfFrom lo m = true) {a : Nat} (ha : a < lo) :
    readByte m a = Config.unlistedByte := by
  cases m with
  | nil => rfl
  | cons e m =>
    simp only [memoryWfFrom, Bool.and_eq_true, decide_eq_true_eq] at h
    simp only [readByte]; rw [if_pos (by omega)]

theorem wfFrom_weaken {lo lo' : Nat} {m : Memory} (h : memoryWfFrom lo m = true) (hl : lo' ≤ lo) :
    memoryWfFrom lo' m = true := by
  cases m with
  | nil => rfl
  | cons e m =>
    simp only [memoryWfFrom, Bool.and_eq_true, decide_eq_true_eq] at h ⊢
    exact ⟨⟨⟨by omega, h.1.1.2⟩, h.1.2⟩, h.2⟩

theorem wfFrom_writeByte {lo : Nat} {m : Memory} (h : memoryWfFrom lo m = true) {a : Nat} (hl : lo ≤ a)
    (ha : a < Config.addressSpace) (b : Byte) : memoryWfFrom lo (writeByte m a b) = true := by
  induction m generalizing lo with
  | nil => unfold writeByte; split <;> simp_all [memoryWfFrom]
  | cons e m ih =>
    have h' := h
    simp only [memoryWfFrom, Bool.and_eq_true, decide_eq_true_eq] at h
    obtain ⟨⟨⟨h1, h2⟩, h3⟩, h4⟩ := h
    unfold writeByte
    split
    · split
      · exact h'
      · simp only [memoryWfFrom, Bool.and_eq_true, decide_eq_true_eq]
        exact ⟨⟨⟨hl, ha⟩, ‹_›⟩, ⟨⟨by omega, h2⟩, h3⟩, h4⟩
    · split
      · split
        · exact wfFrom_weaken h4 (by omega)
        · simp only [memoryWfFrom, Bool.and_eq_true, decide_eq_true_eq]
          exact ⟨⟨⟨hl, ha⟩, ‹_›⟩, by subst a; exact h4⟩
      · simp only [memoryWfFrom, Bool.and_eq_true, decide_eq_true_eq]
        exact ⟨⟨⟨h1, h2⟩, h3⟩, ih h4 (by omega)⟩

theorem readByte_writeByte_from {lo : Nat} {m : Memory} (h : memoryWfFrom lo m = true) (a x : Nat) (b : Byte) :
    readByte (writeByte m a b) x = if x = a then b else readByte m x := by
  induction m generalizing lo with
  | nil => unfold writeByte; split <;> simp only [readByte] <;> split <;> (try split) <;> first | rfl | omega | simp_all
  | cons e m ih =>
    obtain ⟨k, v⟩ := e
    simp only [memoryWfFrom, Bool.and_eq_true, decide_eq_true_eq] at h
    obtain ⟨-, h4⟩ := h
    unfold writeByte
    by_cases hak : a < k
    · rw [if_pos hak]
      by_cases hb : b = Config.unlistedByte
      · rw [if_pos hb]; split
        · subst x; simp [readByte, hak, hb]
        · rfl
      · rw [if_neg hb]
        by_cases hx : x = a
        · subst x; simp [readByte]
        · rw [if_neg hx]; simp only [readByte]
          by_cases hxa : x < a
          · rw [if_pos hxa, if_pos (by omega)]
          · rw [if_neg hxa, if_neg hx]
    · rw [if_neg hak]
      by_cases hk : a = k
      · rw [if_pos hk]; subst a
        by_cases hb : b = Config.unlistedByte
        · rw [if_pos hb]
          by_cases hx : x = k
          · subst x; rw [if_pos rfl, hb]; exact readByte_below h4 (by omega)
          · rw [if_neg hx]; simp only [readByte]
            by_cases hxk : x < k
            · rw [if_pos hxk]; exact readByte_below h4 (by omega)
            · rw [if_neg hxk, if_neg hx]
        · rw [if_neg hb]; simp only [readByte]
          by_cases hx : x = k
          · simp [hx]
          · simp [hx]
      · rw [if_neg hk]; simp only [readByte, ih h4]
        by_cases hx : x = a
        · subst x; simp [hak, hk]
        · simp [hx]

/-- Memories in canonical form that read alike everywhere are equal. -/
theorem memory_ext_from {lo : Nat} {m m' : Memory} (h : memoryWfFrom lo m = true) (h' : memoryWfFrom lo m' = true)
    (e : ∀ a, readByte m a = readByte m' a) : m = m' := by
  induction m generalizing lo m' with
  | nil =>
    cases m' with
    | nil => rfl
    | cons f m' =>
      obtain ⟨k, v⟩ := f
      simp only [memoryWfFrom, Bool.and_eq_true, decide_eq_true_eq] at h'
      have := e k; simp only [readByte, Nat.lt_irrefl, if_false, if_true] at this
      exact absurd this.symm h'.1.2
  | cons f m ih =>
    obtain ⟨k, v⟩ := f
    simp only [memoryWfFrom, Bool.and_eq_true, decide_eq_true_eq] at h
    cases m' with
    | nil =>
      have := e k; simp only [readByte, Nat.lt_irrefl, if_false, if_true] at this
      exact absurd this h.1.2
    | cons f' m' =>
      obtain ⟨k', v'⟩ := f'
      simp only [memoryWfFrom, Bool.and_eq_true, decide_eq_true_eq] at h'
      have hk : k = k' := by
        rcases Nat.lt_trichotomy k k' with hlt | heq | hgt
        · have := e k; simp only [readByte, Nat.lt_irrefl, if_false, if_true, hlt] at this
          exact absurd this h.1.2
        · exact heq
        · have := e k'; simp only [readByte, Nat.lt_irrefl, if_false, if_true, hgt] at this
          exact absurd this.symm h'.1.2
      subst hk
      have hv : v = v' := by have := e k; simpa [readByte] using this
      subst hv
      congr 1
      refine ih h.2 h'.2 fun a => ?_
      by_cases ha : a ≤ k
      · rw [readByte_below h.2 (by omega), readByte_below h'.2 (by omega)]
      · have := e a; simp only [readByte] at this
        rwa [if_neg (by omega), if_neg (by omega), if_neg (by omega), if_neg (by omega)] at this

theorem memory_ext {m m' : Memory} (h : Memory.wf m = true) (h' : Memory.wf m' = true)
    (e : ∀ a, readByte m a = readByte m' a) : m = m' := memory_ext_from h h' e

@[simp] theorem wf_nil : Memory.wf [] = true := rfl
@[simp] theorem readByte_nil (a : Nat) : readByte [] a = Config.unlistedByte := rfl

/-! ### One law for every write -/

/-- `m'` is `m` with the `n` bytes from `a` on replaced by `f 0, .., f (n - 1)`, and it is in canonical form. -/
structure Fills (m m' : Memory) (a n : Nat) (f : Nat → Byte) : Prop where
  wf : Memory.wf m' = true
  read : ∀ x, readByte m' x = if a ≤ x ∧ x < a + n then f (x - a) else readByte m x

theorem Fills.nil {m : Memory} (h : Memory.wf m = true) (a : Nat) (f : Nat → Byte) : Fills m m a 0 f :=
  ⟨h, fun x => by rw [if_neg (by omega)]⟩

theorem Fills.outside {m m' : Memory} {a n : Nat} {f : Nat → Byte} (h : Fills m m' a n f) {x : Nat}
    (hx : x < a ∨ a + n ≤ x) : readByte m' x = readByte m x := by rw [h.read, if_neg (by omega)]

theorem Fills.inside {m m' : Memory} {a n : Nat} {f : Nat → Byte} (h : Fills m m' a n f) {j : Nat} (hj : j < n) :
    readByte m' (a + j) = f j := by rw [h.read, if_pos (by omega)]; congr 1; omega

theorem Fills.congr {m m' : Memory} {a n : Nat} {f g : Nat → Byte} (h : Fills m m' a n f) (e : ∀ j < n, f j = g j) :
    Fills m m' a n g :=
  ⟨h.wf, fun x => by rw [h.read]; split <;> [exact e _ (by omega); rfl]⟩

/-- Two adjoining writes are one. -/
theorem Fills.trans {m m1 m2 : Memory} {a n n' : Nat} {f g : Nat → Byte} (h1 : Fills m m1 a n f)
    (h2 : Fills m1 m2 (a + n) n' g) : Fills m m2 a (n + n') (fun j => if j < n then f j else g (j - n)) := by
  refine ⟨h2.wf, fun x => ?_⟩
  rw [h2.read, h1.read]
  by_cases h : a ≤ x
  · by_cases h' : x < a + n
    · rw [if_neg (by omega), if_pos ⟨h, h'⟩, if_pos (by omega), if_pos (by omega)]
    · by_cases h'' : x < a + n + n'
      · rw [if_pos (by omega), if_pos (by omega), if_neg (by omega)]; congr 1; omega
      · rw [if_neg (by omega), if_neg (by omega), if_neg (by omega)]
  · rw [if_neg (by omega), if_neg (by omega), if_neg (by omega)]

theorem fills_writeByte {m : Memory} (h : Memory.wf m = true) {a : Nat} (ha : a < Config.addressSpace) (b : Byte) :
    Fills m (writeByte m a b) a 1 (fun _ => b) := by
  refine ⟨wfFrom_writeByte h (Nat.zero_le a) ha b, fun x => ?_⟩
  rw [readByte_writeByte_from h]
  by_cases hx : x = a
  · rw [if_pos hx, if_pos (by omega)]
  · rw [if_neg hx, if_neg (by omega)]

theorem readByte_writeByte {m : Memory} (h : Memory.wf m = true) (a x : Nat) (b : Byte) :
    readByte (writeByte m a b) x = if x = a then b else readByte m x := readByte_writeByte_from h a x b

theorem fills_memWrite {m : Memory} (h : Memory.wf m = true) {a n : Nat} (ha : a + n ≤ Config.addressSpace) (v : Nat) :
    Fills m (memWrite m a n v) a n (fun j => BitVec.ofNat 8 (v / 256 ^ j)) := by
  induction n generalizing m a v with
  | zero => exact Fills.nil h a _
  | succ n ih =>
    have h1 := fills_writeByte h (a := a) (by omega) (BitVec.ofNat 8 v)
    have h2 := ih h1.wf (a := a + 1) (by omega) (v / 256)
    rw [memWrite, Nat.add_comm n 1]
    refine (h1.trans h2).congr fun j hj => ?_
    cases j with
    | zero => simp
    | succ j => rw [if_neg (by omega), Nat.add_sub_cancel, Nat.div_div_eq_div_mul, pow_succ']

theorem fills_writeWord {m : Memory} (h : Memory.wf m = true) {a : Nat} (ha : a + 4 ≤ Config.addressSpace) (x : Word) :
    Fills m (memWrite m a 4 x.toNat) a 4 (wordByte x) :=
  (fills_memWrite h ha x.toNat).congr fun j _ =>
    BitVec.eq_of_toNat_eq (by rw [wordByte_toNat, BitVec.toNat_ofNat])

/-- Pieces of equal size one after another, in ascending order: `n` pieces of `c` bytes. -/
theorem fills_pieces {c : Nat} (step : Memory → Nat → Memory) (f : Nat → Nat → Byte) {a : Nat} {n : Nat}
    (hs : ∀ m k, k < n → Memory.wf m = true → Fills m (step m k) (a + c * k) c (f k)) {m : Memory}
    (h : Memory.wf m = true) : ∀ j ≤ n,
      Fills m ((List.range j).foldl step m) a (c * j) (fun x => f (x / c) (x % c)) := by
  intro j
  induction j with
  | zero => intro _; exact Fills.nil h a _
  | succ j ih =>
    intro hj
    have h1 := ih (by omega)
    rw [List.range_succ, List.foldl_append, List.foldl_cons, List.foldl_nil, Nat.mul_succ]
    refine (h1.trans (hs _ j (by omega) h1.wf)).congr fun x hx => ?_
    by_cases hxl : x < c * j
    · rw [if_pos hxl]
    · rw [if_neg hxl]
      have hc : 0 < c := by rcases Nat.eq_zero_or_pos c with rfl | h <;> omega
      obtain ⟨y, rfl⟩ := Nat.exists_eq_add_of_le (Nat.le_of_not_lt hxl)
      have hy : y < c := by omega
      rw [Nat.mul_add_div hc, Nat.div_eq_of_lt hy, Nat.mul_add_mod, Nat.mod_eq_of_lt hy, Nat.add_zero,
        Nat.add_sub_cancel_left]

theorem foldl_octIndices {β : Type} (step : β → Fin 8 → β) (b : β) :
    octIndices.foldl step b = (List.range 8).foldl (fun b k => step b (Fin.ofNat 8 k)) b := rfl

theorem fills_writeVec {m : Memory} (h : Memory.wf m = true) {a : Nat} (ha : a + 32 ≤ Config.addressSpace) (V : Vec) :
    Fills m (writeVec m a V) a 32 (vecByte V) := by
  rw [writeVec, foldl_octIndices]
  refine fills_pieces (c := 4) (n := 8) _ (fun k => wordByte (V.get (Fin.ofNat 8 k))) (fun m k hk hm => ?_) h 8 le_rfl
  have hv : (Fin.ofNat 8 k).val = k := Nat.mod_eq_of_lt hk
  rw [hv]
  exact fills_writeWord hm (by omega) _

theorem fills_writeMat {m : Memory} (h : Memory.wf m = true) {a : Nat} (ha : a + 256 ≤ Config.addressSpace) (M : Mat) :
    Fills m (writeMat m a M) a 256 (fun x => vecByte (M.get (Fin.ofNat 8 (x / 32))) (x % 32)) := by
  rw [writeMat, foldl_octIndices]
  refine fills_pieces (c := 32) (n := 8) _ (fun k => vecByte (M.get (Fin.ofNat 8 k))) (fun m k hk hm => ?_) h 8 le_rfl
  have hv : (Fin.ofNat 8 k).val = k := Nat.mod_eq_of_lt hk
  rw [hv]
  exact fills_writeVec hm (by omega) _

theorem fills_scrambleBytes (d : Nat) {m : Memory} (h : Memory.wf m = true) {a n : Nat}
    (ha : a + n ≤ Config.addressSpace) :
    Fills m (scrambleBytes d m a n) a n (fun j => Config.freeByte d (a + j)) := by
  induction n generalizing m a with
  | zero => exact Fills.nil h a _
  | succ n ih =>
    have h1 := fills_writeByte h (a := a) (by omega) (Config.freeByte d a)
    have h2 := ih h1.wf (a := a + 1) (by omega)
    rw [scrambleBytes, Nat.add_comm n 1]
    refine (h1.trans h2).congr fun j hj => ?_
    cases j with
    | zero => simp
    | succ j => rw [if_neg (by omega), Nat.add_sub_cancel, Nat.add_assoc, Nat.add_comm 1 j]

/-! ### Reading vectors and matrices -/

@[simp] theorem get_readVec (m : Memory) (a : Nat) (k : Fin 8) : (readVec m a).get k = readWord m (a + 4 * k.val) := by
  simp [readVec]

@[simp] theorem get_readMat (m : Memory) (a : Nat) (r : Fin 8) : (readMat m a).get r = readVec m (a + 32 * r.val) := by
  simp [readMat]

/-- The bytes of the vector at `a` are the 32 bytes from `a` on. -/
theorem vecByte_readVec (m : Memory) (a j : Nat) (hj : j < 32) : vecByte (readVec m a) j = readByte m (a + j) := by
  have hv : (Fin.ofNat 8 (j / 4)).val = j / 4 := Nat.mod_eq_of_lt (by omega)
  rw [vecByte, get_readVec, wordByte_readWord _ _ _ (by omega), hv]
  congr 1; omega

/-- A vector whose 32 bytes stand at `a` is what a read of `a` gives. -/
theorem readVec_eq_of_bytes {m : Memory} {a : Nat} {V : Vec} (h : ∀ j < 32, readByte m (a + j) = vecByte V j) :
    readVec m a = V := by
  refine Oct.ext_get fun k => ?_
  rw [get_readVec]
  refine readWord_eq_of_bytes fun j hj => ?_
  rw [Nat.add_assoc, h _ (by omega), vecByte]
  have h1 : (4 * k.val + j) / 4 = k.val := by omega
  have h2 : (4 * k.val + j) % 4 = j := by omega
  have h3 : Fin.ofNat 8 k.val = k := Fin.ext (Nat.mod_eq_of_lt k.isLt)
  rw [h1, h2, h3]

theorem readVec_congr {m m' : Memory} {a a' : Nat} (h : ∀ j < 32, readByte m (a + j) = readByte m' (a' + j)) :
    readVec m a = readVec m' a' :=
  readVec_eq_of_bytes fun j hj => by rw [h j hj, vecByte_readVec _ _ _ hj]

theorem readMat_congr {m m' : Memory} {a a' : Nat} (h : ∀ j < 256, readByte m (a + j) = readByte m' (a' + j)) :
    readMat m a = readMat m' a' := by
  refine Oct.ext_get fun r => ?_
  rw [get_readMat, get_readMat]
  exact readVec_congr fun j hj => by rw [Nat.add_assoc, Nat.add_assoc]; exact h _ (by omega)

/-- Reading the matrix just written. -/
theorem readMat_writeMat {m : Memory} (h : Memory.wf m = true) {a : Nat} (ha : a + 256 ≤ Config.addressSpace)
    (M : Mat) : readMat (writeMat m a M) a = M := by
  refine Oct.ext_get fun r => ?_
  rw [get_readMat]
  refine readVec_eq_of_bytes fun j hj => ?_
  rw [Nat.add_assoc, (fills_writeMat h ha M).inside (by omega)]
  have h1 : (32 * r.val + j) / 32 = r.val := by omega
  have h2 : (32 * r.val + j) % 32 = j := by omega
  have h3 : Fin.ofNat 8 r.val = r := Fin.ext (Nat.mod_eq_of_lt r.isLt)
  rw [h1, h2, h3]

/-- Reading the vector just written. -/
theorem readVec_writeVec {m : Memory} (h : Memory.wf m = true) {a : Nat} (ha : a + 32 ≤ Config.addressSpace) (V : Vec) :
    readVec (writeVec m a V) a = V :=
  readVec_eq_of_bytes fun _ hj => (fills_writeVec h ha V).inside hj

end Sys2Proof.Machine
end

