-- ==== Sys2Proof/Laws/Platform.lean ====
section
/-! SUPPORT. The laws of the memory map and of the checks: the lowest unmapped address of a range is what its name says
(R176), a device is touched when a range holds one of its addresses (R51), and a command's checks all pass exactly when
every range of its footprint is aligned, inside the address space and mapped (R46, R48, R49). -/

namespace Sys2Proof.Machine

theorem isReadable_iff {map : List Region} {a : Nat} :
    isReadable map a = true ↔ ∃ r ∈ map, r.readable = true ∧ r.base ≤ a ∧ a < r.base + r.size := by
  simp [isReadable, Region.covers]

theorem isWritable_iff {map : List Region} {a : Nat} :
    isWritable map a = true ↔ ∃ r ∈ map, r.writable = true ∧ r.base ≤ a ∧ a < r.base + r.size := by
  simp [isWritable, Region.covers]

theorem isUnmapped_iff {map : List Region} {w : Bool} {a : Nat} :
    isUnmapped map w a = true ↔ isReadable map a = false ∨ w = true ∧ isWritable map a = false := by
  simp [isUnmapped]

theorem isUnmapped_eq_false {map : List Region} {w : Bool} {a : Nat} :
    isUnmapped map w a = false ↔ isReadable map a = true ∧ (w = true → isWritable map a = true) := by
  cases w <;> simp [isUnmapped]

@[simp] theorem Span.holds_iff {sp : Span} {a : Nat} : sp.holds a = true ↔ sp.start ≤ a ∧ a < sp.start + sp.len := by
  simp [Span.holds]

/-- Where the map stops covering, a region ends. -/
theorem region_ends_where_unmapped {map : List Region} {w : Bool} {a : Nat} (h : isUnmapped map w a = false)
    (h' : isUnmapped map w (a + 1) = true) : ∃ r ∈ map, r.base + r.size = a + 1 := by
  obtain ⟨hr, hw⟩ := isUnmapped_eq_false.1 h
  rcases isUnmapped_iff.1 h' with hn | ⟨hw1, hn⟩
  · obtain ⟨r, hm, hb, h1, h2⟩ := isReadable_iff.1 hr
    refine ⟨r, hm, ?_⟩
    by_contra hne
    have : isReadable map (a + 1) = true := isReadable_iff.2 ⟨r, hm, hb, by omega, by omega⟩
    rw [hn] at this; cases this
  · obtain ⟨r, hm, hb, h1, h2⟩ := isWritable_iff.1 (hw hw1)
    refine ⟨r, hm, ?_⟩
    by_contra hne
    have : isWritable map (a + 1) = true := isWritable_iff.2 ⟨r, hm, hb, by omega, by omega⟩
    rw [hn] at this; cases this

/-- An unmapped address of a range is at or above one of the candidates that `lowestUnmapped` looks at. -/
theorem exists_candidate {map : List Region} {sp : Span} {a : Nat} (h1 : sp.start ≤ a)
    (hu : isUnmapped map sp.writes a = true) :
    ∃ c ∈ sp.start :: map.map (fun r => r.base + r.size),
      sp.start ≤ c ∧ c ≤ a ∧ isUnmapped map sp.writes c = true := by
  obtain ⟨d, rfl⟩ := Nat.exists_eq_add_of_le h1
  induction d with
  | zero => exact ⟨sp.start, by simp, le_rfl, by omega, hu⟩
  | succ d ih =>
    by_cases hp : isUnmapped map sp.writes (sp.start + d) = true
    · obtain ⟨c, hc, h2, h3, h4⟩ := ih (by omega) hp
      exact ⟨c, hc, h2, by omega, h4⟩
    · obtain ⟨r, hm, he⟩ := region_ends_where_unmapped (by simpa using hp) hu
      exact ⟨sp.start + d + 1, List.mem_cons_of_mem _ (List.mem_map.2 ⟨r, hm, he⟩), by omega, by omega, hu⟩

/-- What `lowestUnmapped` answers (R176). -/
theorem lowestUnmapped_eq_some {map : List Region} {sp : Span} {a : Nat} :
    lowestUnmapped map sp = some a ↔
      (sp.holds a = true ∧ isUnmapped map sp.writes a = true) ∧
        ∀ b, sp.holds b = true → isUnmapped map sp.writes b = true → a ≤ b := by
  unfold lowestUnmapped
  rw [List.min?_eq_some_iff]
  simp only [List.mem_filter, Bool.and_eq_true, Span.holds_iff]
  constructor
  · rintro ⟨⟨hc, hh, hu⟩, hmin⟩
    refine ⟨⟨hh, hu⟩, fun b hb hbu => ?_⟩
    obtain ⟨c, hc', h2, h3, h4⟩ := exists_candidate hb.1 hbu
    exact (hmin c ⟨hc', ⟨h2, by omega⟩, h4⟩).trans h3
  · rintro ⟨⟨hh, hu⟩, hmin⟩
    obtain ⟨c, hc', h2, h3, h4⟩ := exists_candidate hh.1 hu
    have := hmin c ⟨h2, by omega⟩ h4
    obtain rfl : c = a := by omega
    exact ⟨⟨hc', hh, hu⟩, fun b hb => hmin b hb.2.1 hb.2.2⟩

/-- When `lowestUnmapped` answers nothing: the whole range is mapped. -/
theorem lowestUnmapped_eq_none {map : List Region} {sp : Span} :
    lowestUnmapped map sp = none ↔ ∀ a, sp.holds a = true → isUnmapped map sp.writes a = false := by
  unfold lowestUnmapped
  simp only [List.min?_eq_none_iff, List.filter_eq_nil_iff, Bool.and_eq_true, Span.holds_iff, not_and,
    Bool.not_eq_true]
  constructor
  · intro h a ha
    by_contra hu
    obtain ⟨c, hc', h2, h3, h4⟩ := exists_candidate ha.1 (by simpa using hu)
    rw [h c hc' ⟨h2, by omega⟩] at h4; cases h4
  · intro h c _ hc; exact h c hc

/-- No device is touched exactly when no address of the range is a device's (R51). -/
theorem touchesDevice_eq_false {map : List Region} {sp : Span} :
    touchesDevice map sp = false ↔ ∀ a, sp.holds a = true → isDevice map a = false := by
  rw [← Bool.not_eq_true]
  simp only [touchesDevice, isDevice, List.any_eq_true, List.any_eq_false, Bool.and_eq_true, decide_eq_true_eq,
    Region.covers, Span.holds_iff, not_exists, not_and]
  constructor
  · intro h a ha r hm hk h1 h2
    have := h r hm hk
    omega
  · intro h r hm hk hlt
    exact h (max r.base sp.start) (by omega) r hm hk (by omega) (by omega)

/-- Some range of a list touches a device exactly when one of its addresses is a device's (R51). -/
theorem any_touchesDevice {map : List Region} {spans : List Span} : spans.any (touchesDevice map) = true ↔
    ∃ sp ∈ spans, ∃ x, sp.start ≤ x ∧ x < sp.start + sp.len ∧ isDevice map x = true := by
  simp only [List.any_eq_true]
  refine exists_congr fun sp => and_congr_right fun _ => ?_
  rw [← not_iff_not, Bool.not_eq_true, touchesDevice_eq_false]
  simp [Span.holds_iff]

/-- The range may be accessed as the footprint needs it: aligned, inside the address space, mapped (R46, R48, R49). -/
structure Span.Accepted (map : List Region) (sp : Span) : Prop where
  aligned : sp.start % Config.alignment = 0
  inside : sp.start + sp.len ≤ Config.addressSpace
  mapped : ∀ a, sp.holds a = true → isUnmapped map sp.writes a = false

theorem checkSpans_eq_none {map : List Region} {spans : List Span} :
    checkSpans map spans = none ↔ ∀ sp ∈ spans, sp.Accepted map := by
  unfold checkSpans
  constructor
  · intro h
    split at h
    · cases h
    · rename_i h1
      split at h
      · cases h
      · rename_i h2
        split at h
        · cases h
        · rename_i h3
          intro sp hm
          have e1 := List.find?_eq_none.1 h1 sp hm
          have e2 := List.find?_eq_none.1 h2 sp hm
          have e3 := List.findSome?_eq_none_iff.1 h3 sp hm
          simp only [decide_eq_true_eq, not_not, Nat.not_lt] at e1 e2
          exact ⟨e1, e2, lowestUnmapped_eq_none.1 e3⟩
  · intro h
    have h1 : spans.find? (fun sp => decide (sp.start % Config.alignment ≠ 0)) = none :=
      List.find?_eq_none.2 fun sp hm => by simpa using (h sp hm).aligned
    have h2 : spans.find? (fun sp => decide (Config.addressSpace < sp.start + sp.len)) = none :=
      List.find?_eq_none.2 fun sp hm => by simpa using (h sp hm).inside
    have h3 : spans.findSome? (lowestUnmapped map) = none :=
      List.findSome?_eq_none_iff.2 fun sp hm => lowestUnmapped_eq_none.2 (h sp hm).mapped
    simp only [h1, h2, h3]

/-- A command's checks all pass exactly when its length is legal and every range of its footprint is accepted. -/
theorem check_eq_none {i : Instr} {s : State} :
    check i s = none ↔ (i = .normalize → lengthLegal s = true) ∧ ∀ sp ∈ footprint i s, sp.Accepted s.map := by
  unfold check
  split
  · rename_i h
    simp only [reduceCtorEq, false_iff, not_and]
    intro h'; exact absurd (h' h.1) (by simp [h.2])
  · rename_i h
    rw [checkSpans_eq_none]
    refine ⟨fun h' => ⟨fun hi => ?_, h'⟩, fun h' => h'.2⟩
    by_contra hl
    exact h ⟨hi, by simpa using hl⟩

/-- The ranges of a COMPRESS with `COUNT > 0` (R47). -/
theorem mem_footprint_compress {s : State} (h : s.count ≠ 0) {sp : Span} :
    sp ∈ footprint .compress s ↔ sp = matrixSpan s ∨ ∃ k, sp = streamSpan s k := by
  simp only [footprint, if_neg h, List.mem_cons, List.mem_map]
  refine or_congr_right ⟨fun ⟨k, _, e⟩ => ⟨k, e.symm⟩, fun ⟨k, e⟩ => ⟨k, mem_octIndices k, e.symm⟩⟩

/-- What an overlap of the State range and a stream range is (R52). -/
theorem streamOverlap_eq_false {s : State} :
    streamOverlap s = false ↔ ∀ k, s.base.toNat + 256 ≤ (s.sp.get k).toNat ∨
      (s.sp.get k).toNat + 64 * s.count.toNat ≤ s.base.toNat := by
  rw [← Bool.not_eq_true]
  simp only [streamOverlap, List.any_eq_true, Bool.and_eq_true, decide_eq_true_eq, not_exists, not_and]
  constructor
  · intro h k; have := h k (mem_octIndices k); omega
  · intro h k _ _; have := h k; omega

/-- Class 3, the first misaligned range (R174). -/
theorem checkSpans_misaligned {map : List Region} {pre post : List Span} {sp : Span}
    (hpre : ∀ q ∈ pre, q.start % Config.alignment = 0) (h : sp.start % Config.alignment ≠ 0) :
    checkSpans map (pre ++ sp :: post) = some (.misaligned, BitVec.ofNat 64 sp.start) := by
  have e : (pre ++ sp :: post).find? (fun q => decide (q.start % Config.alignment ≠ 0)) = some sp := by
    rw [List.find?_append, List.find?_eq_none.2 (fun q hq => by simpa using hpre q hq)]
    simp [h]
  simp only [checkSpans, e]

/-- Class 4, the first range past the top, where all are aligned (R175). -/
theorem checkSpans_range {map : List Region} {pre post : List Span} {sp : Span}
    (ha : ∀ q ∈ pre ++ sp :: post, q.start % Config.alignment = 0)
    (hpre : ∀ q ∈ pre, q.start + q.len ≤ Config.addressSpace) (h : Config.addressSpace < sp.start + sp.len) :
    checkSpans map (pre ++ sp :: post) = some (.range, BitVec.ofNat 64 sp.start) := by
  have e1 : (pre ++ sp :: post).find? (fun q => decide (q.start % Config.alignment ≠ 0)) = none :=
    List.find?_eq_none.2 fun q hq => by simpa using ha q hq
  have e2 : (pre ++ sp :: post).find? (fun q => decide (Config.addressSpace < q.start + q.len)) = some sp := by
    rw [List.find?_append, List.find?_eq_none.2 (fun q hq => by simpa using hpre q hq)]
    simp [h]
  simp only [checkSpans, e1, e2]

/-- Class 5, the lowest unmapped address of the first range that has one, where all are aligned and inside (R176). -/
theorem checkSpans_unmapped {map : List Region} {pre post : List Span} {sp : Span} {a : Nat}
    (ha : ∀ q ∈ pre ++ sp :: post, q.start % Config.alignment = 0)
    (hi : ∀ q ∈ pre ++ sp :: post, q.start + q.len ≤ Config.addressSpace)
    (hpre : ∀ q ∈ pre, lowestUnmapped map q = none) (h : lowestUnmapped map sp = some a) :
    checkSpans map (pre ++ sp :: post) = some (.unmapped, BitVec.ofNat 64 a) := by
  have e1 : (pre ++ sp :: post).find? (fun q => decide (q.start % Config.alignment ≠ 0)) = none :=
    List.find?_eq_none.2 fun q hq => by simpa using ha q hq
  have e2 : (pre ++ sp :: post).find? (fun q => decide (Config.addressSpace < q.start + q.len)) = none :=
    List.find?_eq_none.2 fun q hq => by simpa using hi q hq
  have e3 : (pre ++ sp :: post).findSome? (lowestUnmapped map) = some a := by
    rw [List.findSome?_append, List.findSome?_eq_none_iff.2 hpre]
    simp [h]
  simp only [checkSpans, e1, e2, e3]

/-- The list of eight things split at the `k`-th: those before it have smaller indices. -/
theorem split_octIndices {α : Type} (f : Fin 8 → α) (k : Fin 8) :
    ∃ pre post, octIndices.map f = pre ++ f k :: post ∧ ∀ x ∈ pre, ∃ j < k, x = f j := by
  refine ⟨(octIndices.take k.val).map f, (octIndices.drop (k.val + 1)).map f, ?_, ?_⟩
  · revert k; simp only [forall_fin8]; exact ⟨rfl, rfl, rfl, rfl, rfl, rfl, rfl, rfl⟩
  · intro x hx
    obtain ⟨j, hj, rfl⟩ := List.mem_map.1 hx
    have hlt : ∀ k j : Fin 8, j ∈ octIndices.take k.val → j < k := by decide
    exact ⟨j, hlt k j hj, rfl⟩

/-- A command's checks are those of its ranges, where its length is legal. -/
theorem check_of_lengthLegal {i : Instr} {s : State} (h : i = .normalize → lengthLegal s = true) :
    check i s = checkSpans s.map (footprint i s) := by
  rw [check, if_neg]
  rintro ⟨h1, h2⟩; rw [h h1] at h2; cases h2

/-- A command that fails a check ends as that fault (R178). -/
theorem runChecked_fault {i : Instr} {body : State → State} {s : State} {f : CmdFault} {info : BitVec 64}
    (h : check i s = some (f, info)) : runChecked i body s = .next (raise f info s) := by
  simp only [runChecked, h]

/-! ### Running a command -/

/-- Everything a checked command can answer: a fault, the refusal of a footprint that is not ordinary memory, or its
own effect. -/
theorem runChecked_cases (i : Instr) (body : State → State) (s : State) :
    (∃ f info, check i s = some (f, info) ∧ runChecked i body s = .next (raise f info s)) ∨
      (check i s = none ∧ (footprint i s).any (touchesDevice s.map) = true ∧
        runChecked i body s = .refused .deviceFootprint) ∨
      (check i s = none ∧ (footprint i s).any (touchesDevice s.map) = false ∧
        runChecked i body s = .next (body s)) := by
  unfold runChecked
  cases h : check i s with
  | some e => exact .inl ⟨e.1, e.2, rfl, rfl⟩
  | none =>
    cases h' : (footprint i s).any (touchesDevice s.map)
    · exact .inr (.inr ⟨rfl, rfl, rfl⟩)
    · exact .inr (.inl ⟨rfl, rfl, rfl⟩)

/-- A checked command whose length is legal, whose footprint is accepted and is ordinary memory has its own effect. -/
theorem runChecked_body {i : Instr} {body : State → State} {s : State}
    (hl : i = .normalize → lengthLegal s = true) (ha : ∀ sp ∈ footprint i s, sp.Accepted s.map)
    (ho : ∀ sp ∈ footprint i s, ∀ a, sp.holds a = true → isDevice s.map a = false) :
    runChecked i body s = .next (body s) := by
  have hc : check i s = none := check_eq_none.2 ⟨hl, ha⟩
  have hd : (footprint i s).any (touchesDevice s.map) = false :=
    List.any_eq_false.2 fun sp hm => by simpa using touchesDevice_eq_false.2 (ho sp hm)
  simp [runChecked, hc, hd]

end Sys2Proof.Machine
end

