-- ==== Sys2Proof/Laws/Datapath.lean ====
section
/-! SUPPORT. The laws of the datapath primitives: what each lifted operation holds in a lane, and what the byte reversal
and the transpose do to bytes and elements. -/

namespace Sys2Proof.Machine

@[simp] theorem get_lift1 (f : Word → Word) (X : Vec) (k : Fin 8) : (lift1 f X).get k = f (X.get k) := by simp [lift1]

@[simp] theorem get_lift2 (f : Word → Word → Word) (X Y : Vec) (k : Fin 8) :
    (lift2 f X Y).get k = f (X.get k) (Y.get k) := by simp [lift2]

@[simp] theorem get_lift3 (f : Word → Word → Word → Word) (X Y Z : Vec) (k : Fin 8) :
    (lift3 f X Y Z).get k = f (X.get k) (Y.get k) (Z.get k) := by simp [lift3]

@[simp] theorem get_addV (X Y : Vec) (k : Fin 8) : (addV X Y).get k = X.get k + Y.get k := by simp [addV]

@[simp] theorem get_bcast (x : Word) (k : Fin 8) : (bcast x).get k = x := by simp [bcast]

@[simp] theorem get_bswapV (V : Vec) (k : Fin 8) : (bswapV V).get k = bswap32 (V.get k) := by simp [bswapV]

@[simp] theorem get_transpose8 (M : Mat) (i j : Fin 8) : ((transpose8 M).get i).get j = (M.get j).get i := by
  simp [transpose8]

/-- The bytes of a word put together from four bytes. -/
theorem wordByte_append_bytes (b : Nat → Byte) {j : Nat} (hj : j < 4) :
    wordByte (b 3 ++ b 2 ++ b 1 ++ b 0) j = b j := by
  apply BitVec.eq_of_toNat_eq
  rw [wordByte_toNat, append_bytes_toNat]
  have h0 := (b 0).isLt; have h1 := (b 1).isLt; have h2 := (b 2).isLt; have h3 := (b 3).isLt
  obtain rfl | rfl | rfl | rfl : j = 0 ∨ j = 1 ∨ j = 2 ∨ j = 3 := by omega
  all_goals simp only [Nat.reducePow, Nat.div_one]; omega

theorem bswap32_eq_bytes (x : Word) :
    bswap32 x = wordByte x 0 ++ wordByte x 1 ++ wordByte x 2 ++ wordByte x 3 := by simp only [bswap32, wordByte]

/-- The byte reversal, byte by byte (R102). -/
theorem wordByte_bswap32 (x : Word) {j : Nat} (hj : j < 4) : wordByte (bswap32 x) j = wordByte x (3 - j) := by
  have h := wordByte_append_bytes (fun j => wordByte x (3 - j)) hj
  rw [bswap32_eq_bytes]; exact h

/-- Words with the same four bytes are equal. -/
theorem word_ext_bytes {x y : Word} (h : ∀ j < 4, wordByte x j = wordByte y j) : x = y := by
  rw [word_eq_bytes x, word_eq_bytes y, h 3 (by omega), h 2 (by omega), h 1 (by omega)]
  exact congrArg _ (h 0 (by omega))

/-- Bytes of a vector that was byte-reversed in every lane (R102). -/
theorem vecByte_bswapV (V : Vec) {q : Nat} : vecByte (bswapV V) q = vecByte V (4 * (q / 4) + (3 - q % 4)) := by
  have h1 : (4 * (q / 4) + (3 - q % 4)) / 4 = q / 4 := by omega
  have h2 : (4 * (q / 4) + (3 - q % 4)) % 4 = 3 - q % 4 := by omega
  rw [vecByte, vecByte, get_bswapV, wordByte_bswap32 _ (by omega), h1, h2]

/-- Element `4k + j` of a vector's bytes is byte `j` of lane `k`. -/
theorem vecByte_lane (V : Vec) (k : Fin 8) {j : Nat} (hj : j < 4) : vecByte V (4 * k.val + j) = wordByte (V.get k) j := by
  have h1 : (4 * k.val + j) / 4 = k.val := by omega
  have h2 : (4 * k.val + j) % 4 = j := by omega
  have h3 : Fin.ofNat 8 k.val = k := Fin.ext (Nat.mod_eq_of_lt k.isLt)
  rw [vecByte, h1, h2, h3]

/-- The word a byte-reversed read gives is the big-endian reading of its four bytes (R45). -/
theorem bswap32_readWord (m : Memory) (a : Nat) :
    bswap32 (readWord m a) = readByte m a ++ readByte m (a + 1) ++ readByte m (a + 2) ++ readByte m (a + 3) := by
  refine word_ext_bytes fun j hj => ?_
  rw [wordByte_bswap32 _ hj, wordByte_readWord _ _ _ (by omega)]
  exact (wordByte_append_bytes (fun j => readByte m (a + (3 - j))) hj).symm

end Sys2Proof.Machine
end

