-- ==== Sys2Proof/Laws/Schedule.lean ====
section
/-! SUPPORT. The message schedule: the standard recurrence holds of `messageSchedule`, and the window of a lane holds it,
sixteen words at a time (R148, R154). -/

namespace Sys2Proof.Machine

/-! ### The schedule as a list -/

theorem length_extendSchedule (n : Nat) (W : List Word) : (extendSchedule n W).length = W.length + n := by
  induction n generalizing W with
  | zero => rfl
  | succ n ih => rw [extendSchedule, ih]; simp; omega

theorem getD_extendSchedule_old {n : Nat} {W : List Word} {t : Nat} (h : t < W.length) :
    (extendSchedule n W).getD t 0 = W.getD t 0 := by
  induction n generalizing W with
  | zero => rfl
  | succ n ih =>
    rw [extendSchedule, ih (by simp; omega), List.getD_append _ _ _ _ h]

theorem getD_extendSchedule_new {n : Nat} {W : List Word} {t : Nat} (h16 : 16 ≤ W.length) (h : W.length ≤ t)
    (ht : t < W.length + n) : (extendSchedule n W).getD t 0 =
      smallSigma1 ((extendSchedule n W).getD (t - 2) 0) + (extendSchedule n W).getD (t - 7) 0 +
        smallSigma0 ((extendSchedule n W).getD (t - 15) 0) + (extendSchedule n W).getD (t - 16) 0 := by
  induction n generalizing W with
  | zero => omega
  | succ n ih =>
    rw [extendSchedule]
    by_cases hn : t = W.length
    · subst hn
      rw [getD_extendSchedule_old (by simp), getD_extendSchedule_old (by simp),
        getD_extendSchedule_old (by simp), getD_extendSchedule_old (by simp),
        getD_extendSchedule_old (by simp), List.getD_append _ _ _ (_ - 2) (by omega),
        List.getD_append _ _ _ (_ - 7) (by omega), List.getD_append _ _ _ (_ - 15) (by omega),
        List.getD_append _ _ _ (_ - 16) (by omega), List.getD_append_right _ _ _ _ le_rfl]
      simp
    · exact ih (by simp; omega) (by simp; omega) (by simp; omega)

/-- The first sixteen words are the block's (R154). -/
theorem scheduleWord_of_lt {B : Nat → Byte} {t : Nat} (h : t < 16) : scheduleWord B t = blockWord B t := by
  rw [scheduleWord, messageSchedule, getD_extendSchedule_old (by simpa using h),
    List.getD_eq_getElem _ _ (by simpa using h)]
  simp

/-- The standard recurrence (R154). -/
theorem scheduleWord_of_ge {B : Nat → Byte} {t : Nat} (h : 16 ≤ t) (ht : t < 64) :
    scheduleWord B t = smallSigma1 (scheduleWord B (t - 2)) + scheduleWord B (t - 7) +
      smallSigma0 (scheduleWord B (t - 15)) + scheduleWord B (t - 16) :=
  getD_extendSchedule_new (by simp) (by simpa using h) (by simpa using ht)

theorem blockWord_congr {B B' : Nat → Byte} {t : Nat} (ht : t < 16) (h : ∀ j < 64, B j = B' j) :
    blockWord B t = blockWord B' t := by
  simp only [blockWord]
  rw [h (4 * t) (by omega), h (4 * t + 1) (by omega), h (4 * t + 2) (by omega), h (4 * t + 3) (by omega)]

/-- The schedule of a block depends on its 64 bytes alone. -/
theorem scheduleWord_congr {B B' : Nat → Byte} (h : ∀ j < 64, B j = B' j) (t : Nat) :
    scheduleWord B t = scheduleWord B' t := by
  rw [scheduleWord, scheduleWord, messageSchedule, messageSchedule]
  congr 2
  exact List.map_congr_left fun t ht => blockWord_congr (List.mem_range.1 ht) h

/-! ### The window of one lane -/

/-- Lane `k` of the window holds the sixteen schedule words from `16 q` on. -/
def WindowHolds (w : Bank) (k : Fin 8) (W : Nat → Word) (q : Nat) : Prop :=
  ∀ j : Fin 16, (w.slot j).get k = W (16 * q + j.val)

theorem foldl_slotIndices {β : Type} (step : β → Fin 16 → β) (b : β) :
    slotIndices.foldl step b = (List.range 16).foldl (fun b j => step b (Fin.ofNat 16 j)) b := rfl

/-- One expansion moves the window on by sixteen words, where the recurrence holds of them (R148, R154). -/
theorem windowHolds_expandSchedule {w : Bank} {k : Fin 8} {W : Nat → Word} {q : Nat} (h : WindowHolds w k W q)
    (hW : ∀ j < 16, W (16 * (q + 1) + j) = smallSigma1 (W (16 * (q + 1) + j - 2)) + W (16 * (q + 1) + j - 7) +
      smallSigma0 (W (16 * (q + 1) + j - 15)) + W (16 * (q + 1) + j - 16)) :
    WindowHolds (expandSchedule w) k W (q + 1) := by
  have key : ∀ n ≤ 16, ∀ j : Fin 16,
      ((((List.range n).foldl (fun w j => w.setSlot (Fin.ofNat 16 j) (expandedSlot w (Fin.ofNat 16 j))) w).slot j).get k)
        = if j.val < n then W (16 * (q + 1) + j.val) else W (16 * q + j.val) := by
    intro n
    induction n with
    | zero => intro _ j; simpa using h j
    | succ n ih =>
      intro hn j
      have ih' := ih (by omega)
      rw [List.range_succ, List.foldl_append, List.foldl_cons, List.foldl_nil, Bank.slot_setSlot]
      have hv : (Fin.ofNat 16 n).val = n := Nat.mod_eq_of_lt (by omega)
      generalize (List.range n).foldl (fun w j => w.setSlot (Fin.ofNat 16 j) (expandedSlot w (Fin.ofNat 16 j))) w = w'
        at ih' ⊢
      by_cases hj : j = Fin.ofNat 16 n
      · have hjn : j.val = n := by rw [hj, hv]
        rw [if_pos hj, if_pos (by omega)]
        simp only [expandedSlot, get_addV, get_lift1, ih', hv, Fin.val_ofNat]
        rw [hW j.val (by omega), hjn, if_neg (by omega)]
        have t14 : (if (n + 14) % 16 < n then W (16 * (q + 1) + (n + 14) % 16) else W (16 * q + (n + 14) % 16)) =
            W (16 * (q + 1) + n - 2) := by split <;> (congr 1; omega)
        have t9 : (if (n + 9) % 16 < n then W (16 * (q + 1) + (n + 9) % 16) else W (16 * q + (n + 9) % 16)) =
            W (16 * (q + 1) + n - 7) := by split <;> (congr 1; omega)
        have t1 : (if (n + 1) % 16 < n then W (16 * (q + 1) + (n + 1) % 16) else W (16 * q + (n + 1) % 16)) =
            W (16 * (q + 1) + n - 15) := by split <;> (congr 1; omega)
        have t0 : W (16 * q + n) = W (16 * (q + 1) + n - 16) := by congr 1; omega
        rw [t14, t9, t1, t0]
        ac_rfl
      · have hjn : j.val ≠ n := fun e => hj (Fin.ext (by rw [hv, e]))
        rw [if_neg hj, ih']
        by_cases hjl : j.val < n
        · rw [if_pos hjl, if_pos (by omega)]
        · rw [if_neg hjl, if_neg (by omega)]
  intro j
  rw [expandSchedule, foldl_slotIndices, key 16 le_rfl j, if_pos j.isLt]

end Sys2Proof.Machine
end

