-- ==== Sys2Proof/Laws/State.lean ====
section
/-! SUPPORT. What every update of the state leaves in every field: one lemma per field per update, so that no proof
unfolds a record update. -/

namespace Sys2Proof.Machine

/-! ### The start of a command -/

@[simp] theorem beginCommand_cmd (cw : Word) (s : State) : (beginCommand cw s).cmd = cw := (rfl)
@[simp] theorem beginCommand_status (cw : Word) (s : State) : (beginCommand cw s).status = s.status := (rfl)
@[simp] theorem beginCommand_errinfo (cw : Word) (s : State) : (beginCommand cw s).errinfo = s.errinfo := (rfl)
@[simp] theorem beginCommand_base (cw : Word) (s : State) : (beginCommand cw s).base = s.base := (rfl)
@[simp] theorem beginCommand_count (cw : Word) (s : State) : (beginCommand cw s).count = s.count := (rfl)
@[simp] theorem beginCommand_sp (cw : Word) (s : State) : (beginCommand cw s).sp = s.sp := (rfl)
@[simp] theorem beginCommand_scratch (cw : Word) (s : State) : (beginCommand cw s).scratch = s.scratch := (rfl)
@[simp] theorem beginCommand_seq (cw : Word) (s : State) :
    (beginCommand cw s).seq = { s.seq with phase := .check } :=
  (rfl)
@[simp] theorem beginCommand_mem (cw : Word) (s : State) : (beginCommand cw s).mem = s.mem := (rfl)
@[simp] theorem beginCommand_map (cw : Word) (s : State) : (beginCommand cw s).map = s.map := (rfl)
@[simp] theorem beginCommand_host (cw : Word) (s : State) : (beginCommand cw s).host = s.host := (rfl)
@[simp] theorem beginCommand_replies (cw : Word) (s : State) : (beginCommand cw s).replies = s.replies := (rfl)
@[simp] theorem beginCommand_events (cw : Word) (s : State) : (beginCommand cw s).events = [] := (rfl)
@[simp] theorem beginCommand_draws (cw : Word) (s : State) : (beginCommand cw s).draws = s.draws := (rfl)

/-! ### A fault (R178) -/

@[simp] theorem raise_cmd (f : CmdFault) (info : BitVec 64) (s : State) : (raise f info s).cmd = s.cmd := (rfl)
@[simp] theorem raise_status (f : CmdFault) (info : BitVec 64) (s : State) :
    (raise f info s).status = statusOfFault f :=
  (rfl)
@[simp] theorem raise_errinfo (f : CmdFault) (info : BitVec 64) (s : State) : (raise f info s).errinfo = info := (rfl)
@[simp] theorem raise_base (f : CmdFault) (info : BitVec 64) (s : State) : (raise f info s).base = s.base := (rfl)
@[simp] theorem raise_count (f : CmdFault) (info : BitVec 64) (s : State) : (raise f info s).count = s.count := (rfl)
@[simp] theorem raise_sp (f : CmdFault) (info : BitVec 64) (s : State) : (raise f info s).sp = s.sp := (rfl)
@[simp] theorem raise_scratch (f : CmdFault) (info : BitVec 64) (s : State) :
    (raise f info s).scratch = s.scratch :=
  (rfl)
@[simp] theorem raise_seq (f : CmdFault) (info : BitVec 64) (s : State) :
    (raise f info s).seq = { s.seq with phase := .idle } :=
  (rfl)
@[simp] theorem raise_mem (f : CmdFault) (info : BitVec 64) (s : State) : (raise f info s).mem = s.mem := (rfl)
@[simp] theorem raise_map (f : CmdFault) (info : BitVec 64) (s : State) : (raise f info s).map = s.map := (rfl)
@[simp] theorem raise_host (f : CmdFault) (info : BitVec 64) (s : State) : (raise f info s).host = s.host := (rfl)
@[simp] theorem raise_replies (f : CmdFault) (info : BitVec 64) (s : State) :
    (raise f info s).replies = s.replies :=
  (rfl)
@[simp] theorem raise_events (f : CmdFault) (info : BitVec 64) (s : State) : (raise f info s).events = s.events := (rfl)
@[simp] theorem raise_draws (f : CmdFault) (info : BitVec 64) (s : State) : (raise f info s).draws = s.draws := (rfl)

/-! ### The normal end of a command (R122, R132, R152) -/

@[simp] theorem finish_cmd (s : State) : (finish s).cmd = s.cmd := (rfl)
@[simp] theorem finish_status (s : State) : (finish s).status = statusOfSuccess := (rfl)
@[simp] theorem finish_errinfo (s : State) : (finish s).errinfo = 0 := (rfl)
@[simp] theorem finish_base (s : State) : (finish s).base = s.base := (rfl)
@[simp] theorem finish_count (s : State) : (finish s).count = s.count := (rfl)
@[simp] theorem finish_sp (s : State) : (finish s).sp = s.sp := (rfl)
@[simp] theorem finish_scratch (s : State) : (finish s).scratch = Config.freeScratch s.draws := (rfl)
@[simp] theorem finish_seq (s : State) : (finish s).seq = { Config.freeSequencer s.draws with phase := .idle } := (rfl)
@[simp] theorem finish_mem (s : State) : (finish s).mem = s.mem := (rfl)
@[simp] theorem finish_map (s : State) : (finish s).map = s.map := (rfl)
@[simp] theorem finish_host (s : State) : (finish s).host = s.host := (rfl)
@[simp] theorem finish_replies (s : State) : (finish s).replies = s.replies := (rfl)
@[simp] theorem finish_events (s : State) : (finish s).events = s.events := (rfl)
@[simp] theorem finish_draws (s : State) : (finish s).draws = s.draws + 1 := (rfl)

/-! ### The reset event (R190, R191) -/

@[simp] theorem resetBlock_cmd (s : State) : (resetBlock s).cmd = 0 := (rfl)
@[simp] theorem resetBlock_status (s : State) : (resetBlock s).status = 0 := (rfl)
@[simp] theorem resetBlock_errinfo (s : State) : (resetBlock s).errinfo = 0 := (rfl)
@[simp] theorem resetBlock_base (s : State) : (resetBlock s).base = Config.freeRegister s.draws 0 := (rfl)
@[simp] theorem resetBlock_count (s : State) : (resetBlock s).count = Config.freeRegister s.draws 1 := (rfl)
@[simp] theorem resetBlock_sp (s : State) :
    (resetBlock s).sp = Oct.ofFn fun k => Config.freeRegister s.draws (2 + k.val) :=
  (rfl)
@[simp] theorem resetBlock_scratch (s : State) : (resetBlock s).scratch = Config.freeScratch s.draws := (rfl)
@[simp] theorem resetBlock_seq (s : State) :
    (resetBlock s).seq = { Config.freeSequencer s.draws with phase := .idle } :=
  (rfl)
@[simp] theorem resetBlock_mem (s : State) : (resetBlock s).mem = s.mem := (rfl)
@[simp] theorem resetBlock_map (s : State) : (resetBlock s).map = s.map := (rfl)
@[simp] theorem resetBlock_host (s : State) : (resetBlock s).host = s.host := (rfl)
@[simp] theorem resetBlock_replies (s : State) : (resetBlock s).replies = s.replies := (rfl)
@[simp] theorem resetBlock_events (s : State) : (resetBlock s).events = [] := (rfl)
@[simp] theorem resetBlock_draws (s : State) : (resetBlock s).draws = s.draws + 1 := (rfl)

/-! ### A reply to the host (R199) -/

@[simp] theorem reply_cmd (v : BitVec 64) (s : State) : (reply v s).cmd = s.cmd := (rfl)
@[simp] theorem reply_status (v : BitVec 64) (s : State) : (reply v s).status = s.status := (rfl)
@[simp] theorem reply_errinfo (v : BitVec 64) (s : State) : (reply v s).errinfo = s.errinfo := (rfl)
@[simp] theorem reply_base (v : BitVec 64) (s : State) : (reply v s).base = s.base := (rfl)
@[simp] theorem reply_count (v : BitVec 64) (s : State) : (reply v s).count = s.count := (rfl)
@[simp] theorem reply_sp (v : BitVec 64) (s : State) : (reply v s).sp = s.sp := (rfl)
@[simp] theorem reply_scratch (v : BitVec 64) (s : State) : (reply v s).scratch = s.scratch := (rfl)
@[simp] theorem reply_seq (v : BitVec 64) (s : State) : (reply v s).seq = s.seq := (rfl)
@[simp] theorem reply_mem (v : BitVec 64) (s : State) : (reply v s).mem = s.mem := (rfl)
@[simp] theorem reply_map (v : BitVec 64) (s : State) : (reply v s).map = s.map := (rfl)
@[simp] theorem reply_host (v : BitVec 64) (s : State) : (reply v s).host = s.host := (rfl)
@[simp] theorem reply_replies (v : BitVec 64) (s : State) : (reply v s).replies = s.replies ++ [v] := (rfl)
@[simp] theorem reply_events (v : BitVec 64) (s : State) : (reply v s).events = s.events := (rfl)
@[simp] theorem reply_draws (v : BitVec 64) (s : State) : (reply v s).draws = s.draws := (rfl)

/-! ### NORMALIZE (R122) -/

@[simp] theorem enterNormalize_cmd (s : State) : (enterNormalize s).cmd = s.cmd := (rfl)
@[simp] theorem enterNormalize_status (s : State) : (enterNormalize s).status = s.status := (rfl)
@[simp] theorem enterNormalize_errinfo (s : State) : (enterNormalize s).errinfo = s.errinfo := (rfl)
@[simp] theorem enterNormalize_base (s : State) : (enterNormalize s).base = s.base := (rfl)
@[simp] theorem enterNormalize_count (s : State) : (enterNormalize s).count = s.count := (rfl)
@[simp] theorem enterNormalize_sp (s : State) : (enterNormalize s).sp = s.sp := (rfl)
@[simp] theorem enterNormalize_scratch (s : State) : (enterNormalize s).scratch = s.scratch := (rfl)
@[simp] theorem enterNormalize_seq (s : State) :
    (enterNormalize s).seq = { s.seq with phase := .nChunk, c := 0 } :=
  (rfl)
@[simp] theorem enterNormalize_mem (s : State) : (enterNormalize s).mem = s.mem := (rfl)
@[simp] theorem enterNormalize_map (s : State) : (enterNormalize s).map = s.map := (rfl)
@[simp] theorem enterNormalize_host (s : State) : (enterNormalize s).host = s.host := (rfl)
@[simp] theorem enterNormalize_replies (s : State) : (enterNormalize s).replies = s.replies := (rfl)
@[simp] theorem enterNormalize_events (s : State) : (enterNormalize s).events = s.events := (rfl)
@[simp] theorem enterNormalize_draws (s : State) : (enterNormalize s).draws = s.draws := (rfl)

@[simp] theorem chunkWork_cmd (s : State) : (chunkWork s).cmd = s.cmd := by simp only [chunkWork]
@[simp] theorem chunkWork_status (s : State) : (chunkWork s).status = s.status := by simp only [chunkWork]
@[simp] theorem chunkWork_errinfo (s : State) : (chunkWork s).errinfo = s.errinfo := by simp only [chunkWork]
@[simp] theorem chunkWork_base (s : State) : (chunkWork s).base = s.base := by simp only [chunkWork]
@[simp] theorem chunkWork_count (s : State) : (chunkWork s).count = s.count := by simp only [chunkWork]
@[simp] theorem chunkWork_sp (s : State) : (chunkWork s).sp = s.sp := by simp only [chunkWork]
@[simp] theorem chunkWork_scratch (s : State) : (chunkWork s).scratch = s.scratch := by simp only [chunkWork]
@[simp] theorem chunkWork_seq (s : State) : (chunkWork s).seq = s.seq := by simp only [chunkWork]
@[simp] theorem chunkWork_mem (s : State) :
    (chunkWork s).mem = writeVec s.mem (chunkAddr s s.seq.c) (bswapV (readVec s.mem (chunkAddr s s.seq.c))) :=
  by simp only [chunkWork]
@[simp] theorem chunkWork_map (s : State) : (chunkWork s).map = s.map := by simp only [chunkWork]
@[simp] theorem chunkWork_host (s : State) : (chunkWork s).host = s.host := by simp only [chunkWork]
@[simp] theorem chunkWork_replies (s : State) : (chunkWork s).replies = s.replies := by simp only [chunkWork]
@[simp] theorem chunkWork_events (s : State) :
    (chunkWork s).events = s.events ++ [.read (chunkAddr s s.seq.c), .write (chunkAddr s s.seq.c)] :=
  by simp only [chunkWork]
@[simp] theorem chunkWork_draws (s : State) : (chunkWork s).draws = s.draws := by simp only [chunkWork]

@[simp] theorem nextChunk_cmd (s : State) : (nextChunk s).cmd = s.cmd := by
  unfold nextChunk; split <;> rfl
@[simp] theorem nextChunk_status (s : State) : (nextChunk s).status = s.status := by
  unfold nextChunk; split <;> rfl
@[simp] theorem nextChunk_errinfo (s : State) : (nextChunk s).errinfo = s.errinfo := by
  unfold nextChunk; split <;> rfl
@[simp] theorem nextChunk_base (s : State) : (nextChunk s).base = s.base := by
  unfold nextChunk; split <;> rfl
@[simp] theorem nextChunk_count (s : State) : (nextChunk s).count = s.count := by
  unfold nextChunk; split <;> rfl
@[simp] theorem nextChunk_sp (s : State) : (nextChunk s).sp = s.sp := by
  unfold nextChunk; split <;> rfl
@[simp] theorem nextChunk_scratch (s : State) : (nextChunk s).scratch = s.scratch := by
  unfold nextChunk; split <;> rfl
@[simp] theorem nextChunk_seq (s : State) :
    (nextChunk s).seq = if s.seq.c + 1 < chunkCount s then { s.seq with c := s.seq.c + 1 } else s.seq := by
  unfold nextChunk; split <;> rfl
@[simp] theorem nextChunk_mem (s : State) : (nextChunk s).mem = s.mem := by
  unfold nextChunk; split <;> rfl
@[simp] theorem nextChunk_map (s : State) : (nextChunk s).map = s.map := by
  unfold nextChunk; split <;> rfl
@[simp] theorem nextChunk_host (s : State) : (nextChunk s).host = s.host := by
  unfold nextChunk; split <;> rfl
@[simp] theorem nextChunk_replies (s : State) : (nextChunk s).replies = s.replies := by
  unfold nextChunk; split <;> rfl
@[simp] theorem nextChunk_events (s : State) : (nextChunk s).events = s.events := by
  unfold nextChunk; split <;> rfl
@[simp] theorem nextChunk_draws (s : State) : (nextChunk s).draws = s.draws := by
  unfold nextChunk; split <;> rfl

/-! ### TRANSPOSE (R132) -/

@[simp] theorem enterTranspose_cmd (s : State) : (enterTranspose s).cmd = s.cmd := (rfl)
@[simp] theorem enterTranspose_status (s : State) : (enterTranspose s).status = s.status := (rfl)
@[simp] theorem enterTranspose_errinfo (s : State) : (enterTranspose s).errinfo = s.errinfo := (rfl)
@[simp] theorem enterTranspose_base (s : State) : (enterTranspose s).base = s.base := (rfl)
@[simp] theorem enterTranspose_count (s : State) : (enterTranspose s).count = s.count := (rfl)
@[simp] theorem enterTranspose_sp (s : State) : (enterTranspose s).sp = s.sp := (rfl)
@[simp] theorem enterTranspose_scratch (s : State) : (enterTranspose s).scratch = s.scratch := (rfl)
@[simp] theorem enterTranspose_seq (s : State) : (enterTranspose s).seq = { s.seq with phase := .tRead } := (rfl)
@[simp] theorem enterTranspose_mem (s : State) : (enterTranspose s).mem = s.mem := (rfl)
@[simp] theorem enterTranspose_map (s : State) : (enterTranspose s).map = s.map := (rfl)
@[simp] theorem enterTranspose_host (s : State) : (enterTranspose s).host = s.host := (rfl)
@[simp] theorem enterTranspose_replies (s : State) : (enterTranspose s).replies = s.replies := (rfl)
@[simp] theorem enterTranspose_events (s : State) : (enterTranspose s).events = s.events := (rfl)
@[simp] theorem enterTranspose_draws (s : State) : (enterTranspose s).draws = s.draws := (rfl)

@[simp] theorem transposeRead_cmd (s : State) : (transposeRead s).cmd = s.cmd := (rfl)
@[simp] theorem transposeRead_status (s : State) : (transposeRead s).status = s.status := (rfl)
@[simp] theorem transposeRead_errinfo (s : State) : (transposeRead s).errinfo = s.errinfo := (rfl)
@[simp] theorem transposeRead_base (s : State) : (transposeRead s).base = s.base := (rfl)
@[simp] theorem transposeRead_count (s : State) : (transposeRead s).count = s.count := (rfl)
@[simp] theorem transposeRead_sp (s : State) : (transposeRead s).sp = s.sp := (rfl)
@[simp] theorem transposeRead_seq (s : State) : (transposeRead s).seq = { s.seq with phase := .tWrite } := (rfl)
@[simp] theorem transposeRead_mem (s : State) : (transposeRead s).mem = s.mem := (rfl)
@[simp] theorem transposeRead_map (s : State) : (transposeRead s).map = s.map := (rfl)
@[simp] theorem transposeRead_host (s : State) : (transposeRead s).host = s.host := (rfl)
@[simp] theorem transposeRead_replies (s : State) : (transposeRead s).replies = s.replies := (rfl)
@[simp] theorem transposeRead_events (s : State) :
    (transposeRead s).events = s.events ++ matEvents .read (matrixAddr s) :=
  (rfl)
@[simp] theorem transposeRead_draws (s : State) : (transposeRead s).draws = s.draws := (rfl)

@[simp] theorem transposeWrite_cmd (s : State) : (transposeWrite s).cmd = s.cmd := by simp only [transposeWrite]
@[simp] theorem transposeWrite_status (s : State) :
    (transposeWrite s).status = s.status :=
  by simp only [transposeWrite]
@[simp] theorem transposeWrite_errinfo (s : State) :
    (transposeWrite s).errinfo = s.errinfo :=
  by simp only [transposeWrite]
@[simp] theorem transposeWrite_base (s : State) : (transposeWrite s).base = s.base := by simp only [transposeWrite]
@[simp] theorem transposeWrite_count (s : State) : (transposeWrite s).count = s.count := by simp only [transposeWrite]
@[simp] theorem transposeWrite_sp (s : State) : (transposeWrite s).sp = s.sp := by simp only [transposeWrite]
@[simp] theorem transposeWrite_scratch (s : State) :
    (transposeWrite s).scratch = s.scratch :=
  by simp only [transposeWrite]
@[simp] theorem transposeWrite_seq (s : State) : (transposeWrite s).seq = s.seq := by simp only [transposeWrite]
@[simp] theorem transposeWrite_mem (s : State) :
    (transposeWrite s).mem = writeMat s.mem (matrixAddr s) s.scratch.N :=
  by simp only [transposeWrite]
@[simp] theorem transposeWrite_map (s : State) : (transposeWrite s).map = s.map := by simp only [transposeWrite]
@[simp] theorem transposeWrite_host (s : State) : (transposeWrite s).host = s.host := by simp only [transposeWrite]
@[simp] theorem transposeWrite_replies (s : State) :
    (transposeWrite s).replies = s.replies :=
  by simp only [transposeWrite]
@[simp] theorem transposeWrite_events (s : State) :
    (transposeWrite s).events = s.events ++ matEvents .write (matrixAddr s) :=
  by simp only [transposeWrite]
@[simp] theorem transposeWrite_draws (s : State) : (transposeWrite s).draws = s.draws := by simp only [transposeWrite]

/-! ### COMPRESS (R143 to R152) -/

@[simp] theorem enterCompress_cmd (s : State) : (enterCompress s).cmd = s.cmd := (rfl)
@[simp] theorem enterCompress_status (s : State) : (enterCompress s).status = s.status := (rfl)
@[simp] theorem enterCompress_errinfo (s : State) : (enterCompress s).errinfo = s.errinfo := (rfl)
@[simp] theorem enterCompress_base (s : State) : (enterCompress s).base = s.base := (rfl)
@[simp] theorem enterCompress_count (s : State) : (enterCompress s).count = s.count := (rfl)
@[simp] theorem enterCompress_sp (s : State) : (enterCompress s).sp = s.sp := (rfl)
@[simp] theorem enterCompress_scratch (s : State) : (enterCompress s).scratch = { s.scratch with p := s.sp } := (rfl)
@[simp] theorem enterCompress_seq (s : State) :
    (enterCompress s).seq = { s.seq with phase := .cLoad, blk := 0 } :=
  (rfl)
@[simp] theorem enterCompress_mem (s : State) : (enterCompress s).mem = s.mem := (rfl)
@[simp] theorem enterCompress_map (s : State) : (enterCompress s).map = s.map := (rfl)
@[simp] theorem enterCompress_host (s : State) : (enterCompress s).host = s.host := (rfl)
@[simp] theorem enterCompress_replies (s : State) : (enterCompress s).replies = s.replies := (rfl)
@[simp] theorem enterCompress_events (s : State) : (enterCompress s).events = s.events := (rfl)
@[simp] theorem enterCompress_draws (s : State) : (enterCompress s).draws = s.draws := (rfl)

@[simp] theorem compressLoad_cmd (s : State) : (compressLoad s).cmd = s.cmd := (rfl)
@[simp] theorem compressLoad_status (s : State) : (compressLoad s).status = s.status := (rfl)
@[simp] theorem compressLoad_errinfo (s : State) : (compressLoad s).errinfo = s.errinfo := (rfl)
@[simp] theorem compressLoad_base (s : State) : (compressLoad s).base = s.base := (rfl)
@[simp] theorem compressLoad_count (s : State) : (compressLoad s).count = s.count := (rfl)
@[simp] theorem compressLoad_sp (s : State) : (compressLoad s).sp = s.sp := (rfl)
@[simp] theorem compressLoad_scratch (s : State) :
    (compressLoad s).scratch = { s.scratch with L := ⟨loadHalf s 0, loadHalf s 1⟩ } :=
  (rfl)
@[simp] theorem compressLoad_seq (s : State) : (compressLoad s).seq = { s.seq with phase := .cTranspose } := (rfl)
@[simp] theorem compressLoad_mem (s : State) : (compressLoad s).mem = s.mem := (rfl)
@[simp] theorem compressLoad_map (s : State) : (compressLoad s).map = s.map := (rfl)
@[simp] theorem compressLoad_host (s : State) : (compressLoad s).host = s.host := (rfl)
@[simp] theorem compressLoad_replies (s : State) : (compressLoad s).replies = s.replies := (rfl)
@[simp] theorem compressLoad_events (s : State) : (compressLoad s).events = s.events ++ loadEvents s := (rfl)
@[simp] theorem compressLoad_draws (s : State) : (compressLoad s).draws = s.draws := (rfl)

@[simp] theorem compressTranspose_cmd (s : State) : (compressTranspose s).cmd = s.cmd := (rfl)
@[simp] theorem compressTranspose_status (s : State) : (compressTranspose s).status = s.status := (rfl)
@[simp] theorem compressTranspose_errinfo (s : State) : (compressTranspose s).errinfo = s.errinfo := (rfl)
@[simp] theorem compressTranspose_base (s : State) : (compressTranspose s).base = s.base := (rfl)
@[simp] theorem compressTranspose_count (s : State) : (compressTranspose s).count = s.count := (rfl)
@[simp] theorem compressTranspose_sp (s : State) : (compressTranspose s).sp = s.sp := (rfl)
@[simp] theorem compressTranspose_scratch (s : State) : (compressTranspose s).scratch = transposeBank s.scratch := (rfl)
@[simp] theorem compressTranspose_seq (s : State) : (compressTranspose s).seq = { s.seq with phase := .cCopy } := (rfl)
@[simp] theorem compressTranspose_mem (s : State) : (compressTranspose s).mem = s.mem := (rfl)
@[simp] theorem compressTranspose_map (s : State) : (compressTranspose s).map = s.map := (rfl)
@[simp] theorem compressTranspose_host (s : State) : (compressTranspose s).host = s.host := (rfl)
@[simp] theorem compressTranspose_replies (s : State) : (compressTranspose s).replies = s.replies := (rfl)
@[simp] theorem compressTranspose_events (s : State) : (compressTranspose s).events = s.events := (rfl)
@[simp] theorem compressTranspose_draws (s : State) : (compressTranspose s).draws = s.draws := (rfl)

@[simp] theorem compressCopy_cmd (s : State) : (compressCopy s).cmd = s.cmd := (rfl)
@[simp] theorem compressCopy_status (s : State) : (compressCopy s).status = s.status := (rfl)
@[simp] theorem compressCopy_errinfo (s : State) : (compressCopy s).errinfo = s.errinfo := (rfl)
@[simp] theorem compressCopy_base (s : State) : (compressCopy s).base = s.base := (rfl)
@[simp] theorem compressCopy_count (s : State) : (compressCopy s).count = s.count := (rfl)
@[simp] theorem compressCopy_sp (s : State) : (compressCopy s).sp = s.sp := (rfl)
@[simp] theorem compressCopy_scratch (s : State) :
    (compressCopy s).scratch = copyRows (readMat s.mem (matrixAddr s)) s.scratch :=
  (rfl)
@[simp] theorem compressCopy_seq (s : State) : (compressCopy s).seq = { s.seq with phase := .cRound, i := 0 } := (rfl)
@[simp] theorem compressCopy_mem (s : State) : (compressCopy s).mem = s.mem := (rfl)
@[simp] theorem compressCopy_map (s : State) : (compressCopy s).map = s.map := (rfl)
@[simp] theorem compressCopy_host (s : State) : (compressCopy s).host = s.host := (rfl)
@[simp] theorem compressCopy_replies (s : State) : (compressCopy s).replies = s.replies := (rfl)
@[simp] theorem compressCopy_events (s : State) :
    (compressCopy s).events = s.events ++ matEvents .read (matrixAddr s) :=
  (rfl)
@[simp] theorem compressCopy_draws (s : State) : (compressCopy s).draws = s.draws := (rfl)

@[simp] theorem compressRound_cmd (s : State) : (compressRound s).cmd = s.cmd := (rfl)
@[simp] theorem compressRound_status (s : State) : (compressRound s).status = s.status := (rfl)
@[simp] theorem compressRound_errinfo (s : State) : (compressRound s).errinfo = s.errinfo := (rfl)
@[simp] theorem compressRound_base (s : State) : (compressRound s).base = s.base := (rfl)
@[simp] theorem compressRound_count (s : State) : (compressRound s).count = s.count := (rfl)
@[simp] theorem compressRound_sp (s : State) : (compressRound s).sp = s.sp := (rfl)
@[simp] theorem compressRound_scratch (s : State) : (compressRound s).scratch = roundStep s.seq.i s.scratch := (rfl)
@[simp] theorem compressRound_seq (s : State) :
    (compressRound s).seq = if s.seq.i < 63 then { s.seq with i := s.seq.i + 1 } else { s.seq with phase := .cFeed } :=
  (rfl)
@[simp] theorem compressRound_mem (s : State) : (compressRound s).mem = s.mem := (rfl)
@[simp] theorem compressRound_map (s : State) : (compressRound s).map = s.map := (rfl)
@[simp] theorem compressRound_host (s : State) : (compressRound s).host = s.host := (rfl)
@[simp] theorem compressRound_replies (s : State) : (compressRound s).replies = s.replies := (rfl)
@[simp] theorem compressRound_events (s : State) : (compressRound s).events = s.events := (rfl)
@[simp] theorem compressRound_draws (s : State) : (compressRound s).draws = s.draws := (rfl)

@[simp] theorem compressFeed_cmd (s : State) : (compressFeed s).cmd = s.cmd := by simp only [compressFeed]
@[simp] theorem compressFeed_status (s : State) : (compressFeed s).status = s.status := by simp only [compressFeed]
@[simp] theorem compressFeed_errinfo (s : State) : (compressFeed s).errinfo = s.errinfo := by simp only [compressFeed]
@[simp] theorem compressFeed_base (s : State) : (compressFeed s).base = s.base := by simp only [compressFeed]
@[simp] theorem compressFeed_count (s : State) : (compressFeed s).count = s.count := by simp only [compressFeed]
@[simp] theorem compressFeed_sp (s : State) : (compressFeed s).sp = s.sp := by simp only [compressFeed]
@[simp] theorem compressFeed_scratch (s : State) : (compressFeed s).scratch = s.scratch := by simp only [compressFeed]
@[simp] theorem compressFeed_seq (s : State) :
    (compressFeed s).seq = { s.seq with phase := .cAdvance } :=
  by simp only [compressFeed]
@[simp] theorem compressFeed_mem (s : State) :
    (compressFeed s).mem = writeMat s.mem (matrixAddr s) (feedForward s.scratch) :=
  by simp only [compressFeed]
@[simp] theorem compressFeed_map (s : State) : (compressFeed s).map = s.map := by simp only [compressFeed]
@[simp] theorem compressFeed_host (s : State) : (compressFeed s).host = s.host := by simp only [compressFeed]
@[simp] theorem compressFeed_replies (s : State) : (compressFeed s).replies = s.replies := by simp only [compressFeed]
@[simp] theorem compressFeed_events (s : State) :
    (compressFeed s).events = s.events ++ matEvents .write (matrixAddr s) :=
  by simp only [compressFeed]
@[simp] theorem compressFeed_draws (s : State) : (compressFeed s).draws = s.draws := by simp only [compressFeed]

@[simp] theorem compressAdvance_cmd (s : State) : (compressAdvance s).cmd = s.cmd := (rfl)
@[simp] theorem compressAdvance_status (s : State) : (compressAdvance s).status = s.status := (rfl)
@[simp] theorem compressAdvance_errinfo (s : State) : (compressAdvance s).errinfo = s.errinfo := (rfl)
@[simp] theorem compressAdvance_base (s : State) : (compressAdvance s).base = s.base := (rfl)
@[simp] theorem compressAdvance_count (s : State) : (compressAdvance s).count = s.count := (rfl)
@[simp] theorem compressAdvance_sp (s : State) : (compressAdvance s).sp = s.sp := (rfl)
@[simp] theorem compressAdvance_scratch (s : State) :
    (compressAdvance s).scratch = { s.scratch with p := Oct.ofFn fun k => s.scratch.p.get k + 64 } :=
  (rfl)
@[simp] theorem compressAdvance_seq (s : State) :
    (compressAdvance s).seq = if s.seq.blk + 1 < s.count.toNat then { s.seq with phase := .cLoad, blk := s.seq.blk + 1 } else s.seq :=
  (rfl)
@[simp] theorem compressAdvance_mem (s : State) : (compressAdvance s).mem = s.mem := (rfl)
@[simp] theorem compressAdvance_map (s : State) : (compressAdvance s).map = s.map := (rfl)
@[simp] theorem compressAdvance_host (s : State) : (compressAdvance s).host = s.host := (rfl)
@[simp] theorem compressAdvance_replies (s : State) : (compressAdvance s).replies = s.replies := (rfl)
@[simp] theorem compressAdvance_events (s : State) : (compressAdvance s).events = s.events := (rfl)
@[simp] theorem compressAdvance_draws (s : State) : (compressAdvance s).draws = s.draws := (rfl)

@[simp] theorem transposeRead_scratch_N (s : State) :
    (transposeRead s).scratch.N = transpose8 (readMat s.mem (matrixAddr s)) := (rfl)

end Sys2Proof.Machine
end

