-- ==== Sys2Proof/Laws/Rounds.lean ====
section
/-! SUPPORT. The round loop of one block (R147, R149): what it does to the state, and that every lane of it is the scalar
round loop on that lane's words (R153). -/

namespace Sys2Proof.Machine

/-- The rounds `0 .. n - 1` on the scratch registers. -/
def scratchRounds : Nat → Scratch → Scratch
  | 0, x => x
  | n + 1, x => roundStep n (scratchRounds n x)

/-- The working registers of lane `k`. -/
def laneWorking (x : Scratch) (k : Fin 8) : Oct Word := Oct.ofFn fun r => (x.working.get r).get k

/-! ### The loop -/

theorem rounds_succ (n : Nat) (s : State) : rounds (n + 1) s = compressRound (rounds n s) := by rw [rounds]

/-- What the rounds leave alone. -/
structure RoundsKeep (s t : State) : Prop where
  cmd : t.cmd = s.cmd
  status : t.status = s.status
  errinfo : t.errinfo = s.errinfo
  base : t.base = s.base
  count : t.count = s.count
  sp : t.sp = s.sp
  mem : t.mem = s.mem
  map : t.map = s.map
  host : t.host = s.host
  replies : t.replies = s.replies
  events : t.events = s.events
  draws : t.draws = s.draws
  blk : t.seq.blk = s.seq.blk
  c : t.seq.c = s.seq.c

theorem rounds_keep (n : Nat) (s : State) : RoundsKeep s (rounds n s) := by
  induction n with
  | zero => exact ⟨rfl, rfl, rfl, rfl, rfl, rfl, rfl, rfl, rfl, rfl, rfl, rfl, rfl, rfl⟩
  | succ n ih =>
    obtain ⟨h1, h2, h3, h4, h5, h6, h7, h8, h9, h10, h11, h12, h13, h14⟩ := ih
    rw [rounds_succ]
    refine ⟨by simpa, by simpa, by simpa, by simpa, by simpa, by simpa, by simpa, by simpa, by simpa, by simpa, by simpa,
      by simpa, ?_, ?_⟩
    all_goals simp only [compressRound_seq]; split <;> assumption

/-- The round index and the scratch registers after `n` rounds from `i = 0` on. -/
theorem rounds_spec {s : State} (h : s.seq.i = 0) (n : Nat) (hn : n ≤ 63) :
    (rounds n s).seq.i = n ∧ (rounds n s).seq.phase = s.seq.phase ∧ (rounds n s).scratch = scratchRounds n s.scratch := by
  induction n with
  | zero => exact ⟨h, rfl, rfl⟩
  | succ n ih =>
    obtain ⟨hi, hp, hx⟩ := ih (by omega)
    rw [rounds_succ, compressRound_seq, compressRound_scratch, hi, if_pos (by omega), hx]
    exact ⟨rfl, hp, rfl⟩

/-- The scratch registers after all 64 rounds; the next phase is `C_FEED`. -/
theorem rounds_64 {s : State} (h : s.seq.i = 0) :
    (rounds 64 s).scratch = scratchRounds 64 s.scratch ∧ (rounds 64 s).seq.phase = .cFeed := by
  obtain ⟨hi, -, hx⟩ := rounds_spec h 63 le_rfl
  rw [rounds_succ, compressRound_seq, compressRound_scratch, hi, if_neg (by omega), hx]
  exact ⟨rfl, rfl⟩

/-- What a round leaves alone in the scratch registers. -/
theorem roundStep_keeps (i : Nat) (x : Scratch) : (roundStep i x).L = x.L ∧ (roundStep i x).S = x.S ∧
    (roundStep i x).p = x.p := by
  unfold roundStep; split <;> exact ⟨rfl, rfl, rfl⟩

theorem scratchRounds_keeps (n : Nat) (x : Scratch) : (scratchRounds n x).L = x.L ∧ (scratchRounds n x).S = x.S ∧
    (scratchRounds n x).p = x.p := by
  induction n with
  | zero => exact ⟨rfl, rfl, rfl⟩
  | succ n ih =>
    obtain ⟨h1, h2, h3⟩ := roundStep_keeps n (scratchRounds n x)
    exact ⟨h1.trans ih.1, h2.trans ih.2.1, h3.trans ih.2.2⟩

/-! ### One lane -/

/-- The window that the body of round `i` reads (R147). -/
def roundWindow (i : Nat) (x : Scratch) : Bank := if 0 < i ∧ i % 16 = 0 then expandSchedule x.w else x.w

theorem roundStep_w (i : Nat) (x : Scratch) : (roundStep i x).w = roundWindow i x := by
  unfold roundStep roundWindow; split <;> rfl

/-- Lane `k` of a round body is the scalar round of lane `k` (R110, R149). -/
theorem laneWorking_roundBody (i : Nat) (x : Scratch) (k : Fin 8) : laneWorking (roundBody i x) k =
    scalarRound (roundConstant i) ((x.w.slot (Fin.ofNat 16 i)).get k) (laneWorking x k) := by
  refine Oct.ext_get fun r => ?_
  simp only [laneWorking, Oct.get_ofFn, scalarRound, roundBody, Scratch.working]
  revert r
  simp only [forall_fin8, Oct.get_x0, Oct.get_x1, Oct.get_x2, Oct.get_x3, Oct.get_x4, Oct.get_x5, Oct.get_x6, Oct.get_x7,
    Oct.ofFn, get_addV, roundT1, roundT2, get_lift1, get_lift3, get_bcast, and_self]

theorem laneWorking_roundStep (i : Nat) (x : Scratch) (k : Fin 8) : laneWorking (roundStep i x) k =
    scalarRound (roundConstant i) (((roundWindow i x).slot (Fin.ofNat 16 i)).get k) (laneWorking x k) := by
  unfold roundStep roundWindow; split
  · exact laneWorking_roundBody i { x with w := expandSchedule x.w } k
  · exact laneWorking_roundBody i x k

/-- At round `i` the window of a lane holds `W[16 (i / 16)]` to `W[16 (i / 16) + 15]` (R154). -/
theorem windowHolds_roundWindow {x : Scratch} {k : Fin 8} {B : Nat → Byte}
    (h : ∀ j : Fin 16, (x.w.slot j).get k = blockWord B j.val) (i : Nat) (hi : i < 64) :
    WindowHolds (roundWindow i (scratchRounds i x)) k (scheduleWord B) (i / 16) := by
  have step : ∀ i < 64, WindowHolds (scratchRounds i x).w k (scheduleWord B) ((i - 1) / 16) →
      WindowHolds (roundWindow i (scratchRounds i x)) k (scheduleWord B) (i / 16) := by
    intro i hi hw
    unfold roundWindow
    split
    · rename_i hc
      have hq : i / 16 = (i - 1) / 16 + 1 := by omega
      rw [hq]
      refine windowHolds_expandSchedule hw fun j hj => ?_
      exact scheduleWord_of_ge (by omega) (by omega)
    · rename_i hc
      have hq : i / 16 = (i - 1) / 16 := by omega
      rw [hq]; exact hw
  induction i with
  | zero => exact step 0 hi fun j => by simpa [scratchRounds] using (h j).trans (scheduleWord_of_lt j.isLt).symm
  | succ i ih =>
    refine step (i + 1) hi ?_
    rw [scratchRounds, roundStep_w, Nat.add_sub_cancel]
    exact ih (by omega)

/-- The schedule word that the body of round `i` reads in lane `k` is `W[i]` (R154). -/
theorem slot_roundWindow {x : Scratch} {k : Fin 8} {B : Nat → Byte}
    (h : ∀ j : Fin 16, (x.w.slot j).get k = blockWord B j.val) {i : Nat} (hi : i < 64) :
    ((roundWindow i (scratchRounds i x)).slot (Fin.ofNat 16 i)).get k = scheduleWord B i := by
  rw [windowHolds_roundWindow h i hi, Fin.val_ofNat]
  congr 1; omega

/-- Lane `k` of the round loop is the scalar round loop (R153). -/
theorem laneWorking_scratchRounds {x : Scratch} {k : Fin 8} {B : Nat → Byte}
    (h : ∀ j : Fin 16, (x.w.slot j).get k = blockWord B j.val) (n : Nat) (hn : n ≤ 64) :
    laneWorking (scratchRounds n x) k = scalarRounds B n (laneWorking x k) := by
  induction n with
  | zero => rfl
  | succ n ih =>
    rw [scratchRounds, laneWorking_roundStep, slot_roundWindow h (by omega), ih (by omega)]
    rfl

end Sys2Proof.Machine
end

