-- ==== Sys2Proof/Laws/Compress.lean ====
section
/-! SUPPORT. What one block and the blocks of a COMPRESS do, all of it, once (R143 to R153, R158). -/

namespace Sys2Proof.Machine

/-! ### The scalar functions depend on the block's bytes alone -/

theorem scalarRounds_congr {B B' : Nat → Byte} (h : ∀ j < 64, B j = B' j) (n : Nat) (v : Oct Word) :
    scalarRounds B n v = scalarRounds B' n v := by
  induction n with
  | zero => rfl
  | succ n ih => rw [scalarRounds, scalarRounds, scheduleWord_congr h, ih]

theorem compressionFunction_congr {B B' : Nat → Byte} (h : ∀ j < 64, B j = B' j) (H : Oct Word) :
    compressionFunction H B = compressionFunction H B' := by
  rw [compressionFunction, compressionFunction, scalarRounds_congr h]

theorem chainBlocks_congr {n : Nat} {B B' : Nat → Byte} (h : ∀ j < 64 * n, B j = B' j) (H : Oct Word) :
    chainBlocks n H B = chainBlocks n H B' := by
  induction n generalizing H B B' with
  | zero => rfl
  | succ n ih =>
    rw [chainBlocks, chainBlocks, compressionFunction_congr (fun j hj => h j (by omega))]
    exact ih (fun j hj => h _ (by omega)) _

/-- Two stretches of blocks are one (R156). -/
theorem chainBlocks_add (n n' : Nat) (H : Oct Word) (B : Nat → Byte) :
    chainBlocks (n + n') H B = chainBlocks n' (chainBlocks n H B) fun j => B (64 * n + j) := by
  induction n generalizing H B with
  | zero => simp [chainBlocks]
  | succ n ih =>
    rw [Nat.succ_add, chainBlocks, chainBlocks, ih]
    congr 1; funext j; congr 1; omega

/-! ### One block -/

/-- The state in which a block's rounds begin: steps 1 to 3 done (R144 to R146). -/
def blockStart (s : State) : State := compressCopy (compressTranspose (compressLoad s))

theorem compressBlock_eq (s : State) :
    compressBlock s = compressAdvance (compressFeed (rounds 64 (blockStart s))) := rfl

@[simp] theorem blockStart_i (s : State) : (blockStart s).seq.i = 0 := rfl

/-- After step 2 lane `k` of slot `j` is word `j` of stream `k`'s block (R145). -/
theorem blockStart_window (s : State) (k : Fin 8) (j : Fin 16) : ((blockStart s).scratch.w.slot j).get k =
    blockWord (fun x => readByte s.mem ((s.scratch.p.get k).toNat + x)) j.val := by
  have hb : ∀ (h l : Nat), bswap32 (readWord s.mem (streamAddr s k h + 4 * l)) =
      blockWord (fun x => readByte s.mem ((s.scratch.p.get k).toNat + x)) (8 * h + l) := by
    intro h l
    rw [bswap32_readWord, blockWord, streamAddr]
    have e : (s.scratch.p.get k).toNat + 32 * h + 4 * l = (s.scratch.p.get k).toNat + 4 * (8 * h + l) := by omega
    simp only [e, Nat.add_assoc]
  change (Bank.slot ⟨transpose8 (loadHalf s 0), transpose8 (loadHalf s 1)⟩ j).get k = _
  unfold Bank.slot
  split
  · rename_i hj
    rw [get_transpose8, loadHalf, Oct.get_ofFn, get_bswapV, get_readVec, hb]
    simp
  · rename_i hj
    rw [get_transpose8, loadHalf, Oct.get_ofFn, get_bswapV, get_readVec, hb]
    congr 1; simp only; omega

/-- The lane's column of the copied rows (R146). -/
theorem laneWorking_copyRows (S : Mat) (x : Scratch) (k : Fin 8) :
    laneWorking (copyRows S x) k = Oct.ofFn fun r => (S.get r).get k := (rfl)

/-- The State rows that step 3 copies, lane by lane (R146). -/
theorem laneWorking_blockStart (s : State) (k : Fin 8) :
    laneWorking (blockStart s).scratch k = stateColumn s.mem s.base.toNat k := by
  rw [blockStart, compressCopy_scratch, laneWorking_copyRows, stateColumn, matrixAddr, compressTranspose_mem,
    compressTranspose_base, compressLoad_mem, compressLoad_base]

/-- The matrix that a block writes back (R150). -/
def blockResult (s : State) : Mat := feedForward (scratchRounds 64 (blockStart s).scratch)

/-- Lane by lane it is the scalar compression function of the lane's column and the stream's 64 bytes (R153). -/
theorem blockResult_lane (s : State) (k : Fin 8) : (Oct.ofFn fun r => ((blockResult s).get r).get k) =
    compressionFunction (stateColumn s.mem s.base.toNat k)
      (fun x => readByte s.mem ((s.scratch.p.get k).toNat + x)) := by
  refine Oct.ext_get fun r => ?_
  have hl := laneWorking_scratchRounds (x := (blockStart s).scratch) (k := k) (blockStart_window s k) 64 le_rfl
  rw [laneWorking_blockStart] at hl
  have hS : (scratchRounds 64 (blockStart s).scratch).S = readMat s.mem s.base.toNat :=
    (scratchRounds_keeps 64 _).2.1
  rw [Oct.get_ofFn, blockResult, feedForward, Oct.get_ofFn, get_addV, hS, compressionFunction, Oct.get_ofFn, ← hl,
    laneWorking, Oct.get_ofFn, stateColumn, Oct.get_ofFn]

/-- What a block leaves alone. -/
structure BlockKeeps (s t : State) : Prop where
  cmd : t.cmd = s.cmd
  status : t.status = s.status
  errinfo : t.errinfo = s.errinfo
  base : t.base = s.base
  count : t.count = s.count
  sp : t.sp = s.sp
  map : t.map = s.map
  host : t.host = s.host
  replies : t.replies = s.replies
  draws : t.draws = s.draws

theorem compressBlock_keeps (s : State) : BlockKeeps s (compressBlock s) := by
  have h := rounds_keep 64 (blockStart s)
  rw [compressBlock_eq]
  constructor <;> simp [h.cmd, h.status, h.errinfo, h.base, h.count, h.sp, h.map, h.host, h.replies, h.draws] <;>
    simp [blockStart]

/-- The memory after a block: the State matrix is replaced by the result (R150). -/
theorem compressBlock_mem (s : State) :
    (compressBlock s).mem = writeMat s.mem s.base.toNat (blockResult s) := by
  have h := rounds_keep 64 (blockStart s)
  rw [compressBlock_eq, compressAdvance_mem, compressFeed_mem, h.mem, (rounds_64 (blockStart_i s)).1, matrixAddr, h.base]
  rfl

/-- The local pointers after a block (R151). -/
theorem compressBlock_p (s : State) (k : Fin 8) : (compressBlock s).scratch.p.get k = s.scratch.p.get k + 64 := by
  rw [compressBlock_eq, compressAdvance_scratch, compressFeed_scratch, (rounds_64 (blockStart_i s)).1]
  simp only [Oct.get_ofFn]
  rw [(scratchRounds_keeps 64 _).2.2]
  rfl

theorem toNat_add_64 {p : Addr} (h : p.toNat + 64 < 2 ^ 64) : (p + 64).toNat = p.toNat + 64 := by
  rw [BitVec.toNat_add]; simp only [BitVec.reduceToNat]; exact Nat.mod_eq_of_lt h

/-- The memory events of one block: sixteen stream reads, eight State reads, eight State writes (R158). -/
def blockEvents (a : Nat) (p : Fin 8 → Nat) : List BusEvent :=
  octIndices.flatMap (fun k => [.read (p k), .read (p k + 32)]) ++ matEvents .read a ++ matEvents .write a

theorem compressBlock_events (s : State) : (compressBlock s).events =
    s.events ++ blockEvents s.base.toNat fun k => (s.scratch.p.get k).toNat := by
  have h := rounds_keep 64 (blockStart s)
  rw [compressBlock_eq, compressAdvance_events, compressFeed_events, h.events, matrixAddr, h.base]
  simp [blockStart, blockEvents, loadEvents, streamAddr, matrixAddr, compressCopy, compressTranspose, compressLoad]

/-! ### The blocks -/

/-- The first block, then the others. -/
theorem blocks_succ (n : Nat) (s : State) : blocks (n + 1) s = blocks n (compressBlock s) := by
  induction n with
  | zero => rw [blocks, blocks, blocks]
  | succ n ih => rw [blocks, ih, blocks]

theorem blocks_keep (n : Nat) (s : State) : BlockKeeps s (blocks n s) := by
  induction n generalizing s with
  | zero => exact ⟨rfl, rfl, rfl, rfl, rfl, rfl, rfl, rfl, rfl, rfl⟩
  | succ n ih =>
    obtain ⟨h1, h2, h3, h4, h5, h6, h7, h8, h9, h10⟩ := ih (compressBlock s)
    rw [blocks_succ]
    obtain ⟨g1, g2, g3, g4, g5, g6, g7, g8, g9, g10⟩ := compressBlock_keeps s
    exact ⟨h1.trans g1, h2.trans g2, h3.trans g3, h4.trans g4, h5.trans g5, h6.trans g6, h7.trans g7, h8.trans g8,
      h9.trans g9, h10.trans g10⟩

/-- Whatever the blocks compute, they keep the canonical form and write the State range alone (R47, R50). -/
theorem blocks_mem_frame (n : Nat) {s : State} (hm : Memory.wf s.mem = true)
    (hb : s.base.toNat + 256 ≤ Config.addressSpace) : Memory.wf (blocks n s).mem = true ∧
      ∀ x, x < s.base.toNat ∨ s.base.toNat + 256 ≤ x → readByte (blocks n s).mem x = readByte s.mem x := by
  induction n generalizing s with
  | zero => exact ⟨hm, fun _ _ => rfl⟩
  | succ n ih =>
    have h := fills_writeMat hm hb (blockResult s)
    rw [← compressBlock_mem] at h
    have hk := compressBlock_keeps s
    obtain ⟨h1, h2⟩ := ih (s := compressBlock s) h.wf (by rw [hk.base]; exact hb)
    refine ⟨by rw [blocks_succ]; exact h1, fun x hx => ?_⟩
    rw [blocks_succ, h2 x (by rw [hk.base]; exact hx), h.outside hx]

/-- The columns of the State matrix after `n` blocks, where no stream's bytes lie in the State range (R153). -/
theorem blocks_column (n : Nat) {s : State} (hm : Memory.wf s.mem = true)
    (hb : s.base.toNat + 256 ≤ Config.addressSpace)
    (hp : ∀ k, (s.scratch.p.get k).toNat + 64 * n ≤ Config.addressSpace)
    (hd : ∀ k, s.base.toNat + 256 ≤ (s.scratch.p.get k).toNat ∨ (s.scratch.p.get k).toNat + 64 * n ≤ s.base.toNat)
    (k : Fin 8) : stateColumn (blocks n s).mem s.base.toNat k =
      chainBlocks n (stateColumn s.mem s.base.toNat k) fun x => readByte s.mem ((s.scratch.p.get k).toNat + x) := by
  induction n generalizing s with
  | zero => rfl
  | succ n ih =>
    have h := fills_writeMat hm hb (blockResult s)
    have hr := readMat_writeMat hm hb (blockResult s)
    rw [← compressBlock_mem] at h hr
    have hk := compressBlock_keeps s
    rw [blocks_succ, chainBlocks]
    rcases Nat.eq_zero_or_pos n with rfl | hn
    · rw [blocks, chainBlocks, stateColumn, hr, blockResult_lane]
    · have hpn : ∀ k, ((compressBlock s).scratch.p.get k).toNat = (s.scratch.p.get k).toNat + 64 := fun k => by
        rw [compressBlock_p, toNat_add_64]
        have := hp k; simp only [Config.addressSpace] at this; omega
      have hcol : stateColumn (compressBlock s).mem s.base.toNat k = compressionFunction
          (stateColumn s.mem s.base.toNat k) (fun x => readByte s.mem ((s.scratch.p.get k).toNat + x)) := by
        rw [stateColumn, hr, blockResult_lane]
      have := ih (s := compressBlock s) h.wf (by rw [hk.base]; exact hb)
        (fun k => by rw [hpn]; have := hp k; omega) (fun k => by rw [hpn, hk.base]; have := hd k; omega)
      rw [hk.base, hcol] at this
      rw [this]
      refine chainBlocks_congr (fun j hj => ?_) _
      rw [hpn, h.outside (by have := hd k; omega)]
      congr 1; omega

/-- The memory events of `n` blocks (R158). -/
theorem blocks_events (n : Nat) {s : State} (hp : ∀ k, (s.scratch.p.get k).toNat + 64 * n ≤ Config.addressSpace) :
    (blocks n s).events = s.events ++ (List.range n).flatMap fun blk =>
      blockEvents s.base.toNat fun k => (s.scratch.p.get k).toNat + 64 * blk := by
  induction n generalizing s with
  | zero => simp [blocks]
  | succ n ih =>
    have hk := compressBlock_keeps s
    rcases Nat.eq_zero_or_pos n with rfl | hn
    · simp [blocks, compressBlock_events]
    · have hpn : ∀ k, ((compressBlock s).scratch.p.get k).toNat = (s.scratch.p.get k).toNat + 64 := fun k => by
        rw [compressBlock_p, toNat_add_64]
        have := hp k; simp only [Config.addressSpace] at this; omega
      rw [blocks_succ, ih (fun k => by rw [hpn]; have := hp k; omega), compressBlock_events, hk.base, List.range_succ_eq_map]
      simp only [hpn, List.flatMap_cons, List.flatMap_map, List.append_assoc, Nat.mul_zero, Nat.add_zero]
      congr 2
      refine List.flatMap_congr fun blk _ => ?_
      congr 1; funext k; simp only [Nat.succ_eq_add_one]; omega

/-! ### The command -/

@[simp] theorem streamOverlap_blocks (n : Nat) (s : State) : streamOverlap (blocks n (enterCompress s)) = streamOverlap s := by
  have h := blocks_keep n (enterCompress s)
  simp [streamOverlap, h.base, h.count, h.sp]

theorem compressBody_zero {s : State} (h : s.count = 0) : compressBody s = finish s := by rw [compressBody, if_pos h]

theorem compressBody_pos {s : State} (h : s.count ≠ 0) :
    compressBody s = finishCompress (blocks s.count.toNat (enterCompress s)) := by rw [compressBody, if_neg h]

/-- Without overlap the memory is what the blocks leave. -/
theorem compressBody_mem {s : State} (h : s.count ≠ 0) (ho : streamOverlap s = false) :
    (compressBody s).mem = (blocks s.count.toNat (enterCompress s)).mem := by
  rw [compressBody_pos h, finishCompress, streamOverlap_blocks, ho, if_neg Bool.false_ne_true, finish_mem]

/-- With overlap the State range is unspecified and the rest is what the blocks leave (R52). -/
theorem compressBody_mem_overlap {s : State} (h : s.count ≠ 0) (ho : streamOverlap s = true) :
    (compressBody s).mem =
      scrambleBytes s.draws (blocks s.count.toNat (enterCompress s)).mem s.base.toNat 256 := by
  have hk := blocks_keep s.count.toNat (enterCompress s)
  rw [compressBody_pos h, finishCompress, streamOverlap_blocks, ho, if_pos rfl, finish_mem, matrixAddr, hk.base, hk.draws,
    enterCompress_base, enterCompress_draws]

/-- A COMPRESS keeps the canonical form and writes the State range alone, overlap or not (R47). -/
theorem compressBody_mem_frame {s : State} (hm : Memory.wf s.mem = true)
    (hb : s.count ≠ 0 → s.base.toNat + 256 ≤ Config.addressSpace) : Memory.wf (compressBody s).mem = true ∧
      ∀ x, s.count = 0 ∨ x < s.base.toNat ∨ s.base.toNat + 256 ≤ x →
        readByte (compressBody s).mem x = readByte s.mem x := by
  by_cases h : s.count = 0
  · rw [compressBody_zero h]; exact ⟨hm, fun _ _ => rfl⟩
  · obtain ⟨h1, h2⟩ := blocks_mem_frame s.count.toNat (s := enterCompress s) hm (hb h)
    cases ho : streamOverlap s
    · rw [compressBody_mem h ho]; exact ⟨h1, fun x hx => h2 x (hx.resolve_left h)⟩
    · rw [compressBody_mem_overlap h ho]
      have hf := fills_scrambleBytes s.draws h1 (hb h)
      refine ⟨hf.wf, fun x hx => ?_⟩
      have hx' : x < s.base.toNat ∨ s.base.toNat + 256 ≤ x := hx.resolve_left h
      rw [hf.outside hx']; exact h2 x hx'

/-- What a COMPRESS that passed its checks leaves alone, and how it ends. -/
theorem compressBody_keeps (s : State) : (compressBody s).cmd = s.cmd ∧ (compressBody s).base = s.base ∧
    (compressBody s).count = s.count ∧ (compressBody s).sp = s.sp ∧ (compressBody s).map = s.map ∧
    (compressBody s).host = s.host ∧ (compressBody s).replies = s.replies ∧
    (compressBody s).status = statusOfSuccess ∧ (compressBody s).errinfo = 0 ∧
    (compressBody s).seq.phase = .idle := by
  by_cases h : s.count = 0
  · rw [compressBody_zero h]; simp
  · have hk := blocks_keep s.count.toNat (enterCompress s)
    rw [compressBody_pos h, finishCompress]
    split <;> simp [hk.cmd, hk.base, hk.count, hk.sp, hk.map, hk.host, hk.replies]

/-- The memory events of a COMPRESS (R141, R158). -/
theorem events_compressBody {s : State}
    (hp : s.count ≠ 0 → ∀ k, (s.sp.get k).toNat + 64 * s.count.toNat ≤ Config.addressSpace) :
    (compressBody s).events = s.events ++ (List.range s.count.toNat).flatMap fun blk =>
      blockEvents s.base.toNat fun k => (s.sp.get k).toNat + 64 * blk := by
  by_cases h : s.count = 0
  · rw [compressBody_zero h]; simp [h]
  · have he := blocks_events s.count.toNat (s := enterCompress s) (hp h)
    rw [compressBody_pos h, finishCompress]
    split <;> simpa using he

end Sys2Proof.Machine
end

