-- ==== Sys2Proof/Laws/Normalize.lean ====
section
/-! SUPPORT. What the chunks of a NORMALIZE do, all of it, once (R122, R123, R125). -/

namespace Sys2Proof.Machine

@[simp] theorem chunkCount_nextChunk (s : State) : chunkCount (nextChunk s) = chunkCount s := by simp [chunkCount]
@[simp] theorem chunkCount_chunkWork (s : State) : chunkCount (chunkWork s) = chunkCount s := by simp [chunkCount]
@[simp] theorem chunkAddr_nextChunk (s : State) (c : Nat) : chunkAddr (nextChunk s) c = chunkAddr s c := by
  simp [chunkAddr]
@[simp] theorem chunkAddr_chunkWork (s : State) (c : Nat) : chunkAddr (chunkWork s) c = chunkAddr s c := by
  simp [chunkAddr]

/-- The first chunk, then the others. -/
theorem chunks_succ (n : Nat) (s : State) : chunks (n + 1) s = chunks n (nextChunk (chunkWork s)) := by
  induction n with
  | zero => rw [chunks, chunks, chunks]
  | succ n ih => rw [chunks, ih, chunks]

/-- What the chunks leave alone. -/
structure ChunksKeep (s t : State) : Prop where
  cmd : t.cmd = s.cmd
  status : t.status = s.status
  errinfo : t.errinfo = s.errinfo
  base : t.base = s.base
  count : t.count = s.count
  sp : t.sp = s.sp
  scratch : t.scratch = s.scratch
  phase : t.seq.phase = s.seq.phase
  map : t.map = s.map
  host : t.host = s.host
  replies : t.replies = s.replies
  draws : t.draws = s.draws

theorem chunks_keep (n : Nat) (s : State) : ChunksKeep s (chunks n s) := by
  induction n generalizing s with
  | zero => exact ⟨rfl, rfl, rfl, rfl, rfl, rfl, rfl, rfl, rfl, rfl, rfl, rfl⟩
  | succ n ih =>
    obtain ⟨h1, h2, h3, h4, h5, h6, h7, h8, h9, h10, h11, h12⟩ := ih (nextChunk (chunkWork s))
    rw [chunks_succ]
    refine ⟨h1.trans (by simp), h2.trans (by simp), h3.trans (by simp), h4.trans (by simp), h5.trans (by simp),
      h6.trans (by simp), h7.trans (by simp), h8.trans ?_, h9.trans (by simp), h10.trans (by simp), h11.trans (by simp),
      h12.trans (by simp)⟩
    simp only [nextChunk_seq, chunkWork_seq]; split <;> rfl

/-- The chunk index after a chunk that is not the last. -/
theorem nextChunk_c {s : State} (h : s.seq.c + 1 < chunkCount s) : (nextChunk (chunkWork s)).seq.c = s.seq.c + 1 := by
  simp [h]

/-- The memory after the chunks `c .. c + n - 1`, where `c + n` is the number of chunks: the `32n` bytes from chunk `c`
on are byte-reversed in groups of four, every other byte is as before (R123). -/
theorem fills_chunks (n : Nat) {s : State} (hc : s.seq.c + n = chunkCount s) (hm : Memory.wf s.mem = true)
    (ha : chunkAddr s (chunkCount s) ≤ Config.addressSpace) :
    Fills s.mem (chunks n s).mem (chunkAddr s s.seq.c) (32 * n)
      (fun j => readByte s.mem (chunkAddr s s.seq.c + (4 * (j / 4) + (3 - j % 4)))) := by
  induction n generalizing s with
  | zero => exact Fills.nil hm _ _
  | succ n ih =>
    have h1 := fills_writeVec (V := bswapV (readVec s.mem (chunkAddr s s.seq.c))) hm (a := chunkAddr s s.seq.c)
      (by simp only [chunkAddr] at ha ⊢; omega)
    have h1' : Fills s.mem (nextChunk (chunkWork s)).mem (chunkAddr s s.seq.c) 32
        (fun j => readByte s.mem (chunkAddr s s.seq.c + (4 * (j / 4) + (3 - j % 4)))) := by
      rw [nextChunk_mem, chunkWork_mem]
      refine h1.congr fun j hj => ?_
      rw [vecByte_bswapV, vecByte_readVec _ _ _ (by omega)]
    rcases Nat.eq_zero_or_pos n with rfl | hn
    · rw [chunks_succ, chunks]; exact h1'
    · have hc' := nextChunk_c (s := s) (by omega)
      have h2 := ih (s := nextChunk (chunkWork s)) (by simp only [hc', chunkCount_nextChunk, chunkCount_chunkWork]; omega)
        h1'.wf (by simpa using ha)
      rw [hc'] at h2
      simp only [chunkAddr_nextChunk, chunkAddr_chunkWork] at h2
      have he : chunkAddr s (s.seq.c + 1) = chunkAddr s s.seq.c + 32 := by simp only [chunkAddr]; omega
      rw [he] at h2
      have h3 := h1'.trans h2
      rw [Nat.mul_succ, Nat.add_comm (32 * n) 32, chunks_succ]
      refine h3.congr fun j hj => ?_
      by_cases hj' : j < 32
      · rw [if_pos hj']
      · rw [if_neg hj', h1'.outside (by omega)]
        congr 1; omega

/-- The memory events of the chunks `c .. c + n - 1` (R125). -/
theorem events_chunks (n : Nat) {s : State} (hc : s.seq.c + n = chunkCount s) :
    (chunks n s).events = s.events ++ (List.range n).flatMap fun c =>
      [.read (chunkAddr s (s.seq.c + c)), .write (chunkAddr s (s.seq.c + c))] := by
  induction n generalizing s with
  | zero => simp [chunks]
  | succ n ih =>
    rcases Nat.eq_zero_or_pos n with rfl | hn
    · simp [chunks]
    · have hc' := nextChunk_c (s := s) (by omega)
      rw [chunks_succ, ih (by simp only [hc', chunkCount_nextChunk, chunkCount_chunkWork]; omega), hc', List.range_succ_eq_map]
      simp only [nextChunk_events, chunkWork_events, chunkAddr_nextChunk, chunkAddr_chunkWork, List.flatMap_cons,
        List.flatMap_map, Nat.add_zero, List.append_assoc, List.cons_append, List.nil_append]
      simp only [Nat.succ_eq_add_one, Nat.add_comm, Nat.add_left_comm]

/-- `COUNT` words are `COUNT / 8` chunks, where the length is legal. -/
theorem chunkCount_of_lengthLegal {s : State} (h : lengthLegal s = true) : 8 * chunkCount s = s.count.toNat := by
  simp only [lengthLegal, Bool.and_eq_true, decide_eq_true_eq] at h
  simp only [chunkCount]; omega

/-- NORMALIZE's memory (R123). -/
theorem fills_normalizeBody {s : State} (hl : lengthLegal s = true) (hm : Memory.wf s.mem = true)
    (ha : s.base.toNat + 4 * s.count.toNat ≤ Config.addressSpace) :
    Fills s.mem (normalizeBody s).mem s.base.toNat (4 * s.count.toNat)
      (fun j => readByte s.mem (s.base.toNat + (4 * (j / 4) + (3 - j % 4)))) := by
  have hc := chunkCount_of_lengthLegal hl
  have h := fills_chunks (chunkCount s) (s := enterNormalize s) (by simp [chunkCount]) hm
    (by simp only [chunkAddr, chunkCount, enterNormalize_base, enterNormalize_count] at hc ⊢; omega)
  rw [normalizeBody, finish_mem]
  simpa [chunkAddr, show 32 * chunkCount s = 4 * s.count.toNat by omega] using h

/-- What a NORMALIZE that passed its checks leaves alone, and how it ends. -/
theorem normalizeBody_keeps (s : State) : (normalizeBody s).cmd = s.cmd ∧ (normalizeBody s).base = s.base ∧
    (normalizeBody s).count = s.count ∧ (normalizeBody s).sp = s.sp ∧ (normalizeBody s).map = s.map ∧
    (normalizeBody s).host = s.host ∧ (normalizeBody s).replies = s.replies ∧
    (normalizeBody s).status = statusOfSuccess ∧ (normalizeBody s).errinfo = 0 ∧
    (normalizeBody s).seq.phase = .idle := by
  have h := chunks_keep (chunkCount s) (enterNormalize s)
  simp [normalizeBody, h.cmd, h.base, h.count, h.sp, h.map, h.host, h.replies]

/-- The memory events of a NORMALIZE (R125). -/
theorem events_normalizeBody (s : State) : (normalizeBody s).events = s.events ++
    (List.range (chunkCount s)).flatMap fun c => [.read (chunkAddr s c), .write (chunkAddr s c)] := by
  rw [normalizeBody, finish_events, events_chunks _ (by simp [chunkCount])]
  simp [chunkAddr]

end Sys2Proof.Machine
end

