-- ==== Sys2Proof/Laws/Transpose.lean ====
section
/-! SUPPORT. What a TRANSPOSE that passed its checks does, all of it, once (R132, R133). -/

namespace Sys2Proof.Machine

/-- TRANSPOSE's memory: the matrix at `BASE` is replaced by its transpose (R132). -/
theorem transposeBody_mem (s : State) : (transposeBody s).mem =
    writeMat s.mem s.base.toNat (transpose8 (readMat s.mem s.base.toNat)) := by
  simp [transposeBody, matrixAddr]

/-- TRANSPOSE's memory events: eight reads, then eight writes (R133). -/
theorem transposeBody_events (s : State) : (transposeBody s).events =
    s.events ++ matEvents .read s.base.toNat ++ matEvents .write s.base.toNat := by
  simp [transposeBody, matrixAddr]

/-- What a TRANSPOSE that passed its checks leaves alone, and how it ends. -/
theorem transposeBody_keeps (s : State) : (transposeBody s).cmd = s.cmd ∧ (transposeBody s).base = s.base ∧
    (transposeBody s).count = s.count ∧ (transposeBody s).sp = s.sp ∧ (transposeBody s).map = s.map ∧
    (transposeBody s).host = s.host ∧ (transposeBody s).replies = s.replies ∧
    (transposeBody s).status = statusOfSuccess ∧ (transposeBody s).errinfo = 0 ∧
    (transposeBody s).seq.phase = .idle := by
  simp [transposeBody]

/-- The transpose of a transpose is the matrix (R109). -/
theorem transpose8_transpose8 (M : Mat) : transpose8 (transpose8 M) = M :=
  Oct.ext_get fun i => Oct.ext_get fun j => by simp

end Sys2Proof.Machine
end

