-- ==== Sys2Proof/Laws/Commands.lean ====
section
/-! SUPPORT. The three commands as one: what `exec` can answer, what every command leaves alone, where a command may
write, and when its own effect is what happens. -/

namespace Sys2Proof.Machine

/-! ### The layout of `STATUS` (R15, R178) -/

@[simp] theorem legalStatus_statusOfFault (f : CmdFault) : legalStatus (statusOfFault f) = true := by cases f <;> decide
@[simp] theorem legalStatus_statusOfSuccess : legalStatus statusOfSuccess = true := by decide
@[simp] theorem statusErr_statusOfFault (f : CmdFault) : statusErr (statusOfFault f) = true := by cases f <;> decide
@[simp] theorem statusErr_statusOfSuccess : statusErr statusOfSuccess = false := by decide
@[simp] theorem statusDone_statusOfFault (f : CmdFault) : statusDone (statusOfFault f) = false := by cases f <;> decide
@[simp] theorem statusDone_statusOfSuccess : statusDone statusOfSuccess = true := by decide
@[simp] theorem statusCode_statusOfFault (f : CmdFault) : statusCode (statusOfFault f) = BitVec.ofNat 4 f.code := by
  cases f <;> decide

/-! ### What a command can do -/

/-- The effect of a command whose checks have passed. -/
def commandBody : Instr → State → State
  | .normalize => normalizeBody
  | .transpose => transposeBody
  | .compress => compressBody

theorem exec_eq (i : Instr) (s : State) : exec i s = runChecked i (commandBody i) s := by
  cases i <;> rfl

/-- Everything a command that completes can have done: a fault, or its own effect on ordinary memory. -/
theorem exec_next {i : Instr} {s t : State} (h : exec i s = .next t) :
    (∃ f info, check i s = some (f, info) ∧ t = raise f info s) ∨
      (check i s = none ∧ (footprint i s).any (touchesDevice s.map) = false ∧ t = commandBody i s) := by
  rw [exec_eq] at h
  rcases runChecked_cases i (commandBody i) s with ⟨f, info, hc, e⟩ | ⟨-, -, e⟩ | ⟨hc, hd, e⟩
  · rw [e] at h; exact .inl ⟨f, info, hc, (Host.Outcome.next.inj h).symm⟩
  · rw [e] at h; cases h
  · rw [e] at h; exact .inr ⟨hc, hd, (Host.Outcome.next.inj h).symm⟩

/-- Which faults the checks of a command raise (R121, R131, R142). -/
theorem check_code {i : Instr} {s : State} {f : CmdFault} {info : BitVec 64} (h : check i s = some (f, info)) :
    f ≠ .illegalCmd ∧ (f = .badLength ↔ i = .normalize ∧ lengthLegal s = false) ∧ (f = .badLength → info = s.count) := by
  unfold check at h
  split at h
  · rename_i hb
    cases h; exact ⟨by simp, by simpa using hb, fun _ => rfl⟩
  · rename_i hb
    have hf : f = .misaligned ∨ f = .range ∨ f = .unmapped := by
      unfold checkSpans at h
      split at h
      · cases h; exact .inl rfl
      · split at h
        · cases h; exact .inr (.inl rfl)
        · split at h
          · cases h; exact .inr (.inr rfl)
          · cases h
    rcases hf with rfl | rfl | rfl <;> exact ⟨by simp, by simpa using hb, by simp⟩

/-- What the effect of a command leaves alone, and how it ends. -/
theorem commandBody_keeps (i : Instr) (s : State) : KeepsOperands s (commandBody i s) ∧ EndedWell (commandBody i s) := by
  cases i with
  | normalize =>
    obtain ⟨h1, h2, h3, h4, h5, h6, h7, h8, h9, h10⟩ := normalizeBody_keeps s
    exact ⟨⟨h1, h2, h3, h4, h5, h6, h7⟩, ⟨h8, h9, h10⟩⟩
  | transpose =>
    obtain ⟨h1, h2, h3, h4, h5, h6, h7, h8, h9, h10⟩ := transposeBody_keeps s
    exact ⟨⟨h1, h2, h3, h4, h5, h6, h7⟩, ⟨h8, h9, h10⟩⟩
  | compress =>
    obtain ⟨h1, h2, h3, h4, h5, h6, h7, h8, h9, h10⟩ := compressBody_keeps s
    exact ⟨⟨h1, h2, h3, h4, h5, h6, h7⟩, ⟨h8, h9, h10⟩⟩

theorem raise_keeps (f : CmdFault) (info : BitVec 64) (s : State) : KeepsOperands s (raise f info s) :=
  ⟨rfl, rfl, rfl, rfl, rfl, rfl, rfl⟩

/-- A NORMALIZE that passed its checks. -/
theorem accepted_normalize {s : State} (h : check .normalize s = none) :
    lengthLegal s = true ∧ Span.Accepted s.map { start := s.base.toNat, len := 4 * s.count.toNat, writes := true } := by
  obtain ⟨h1, h2⟩ := check_eq_none.1 h
  exact ⟨h1 rfl, h2 _ (by simp [footprint])⟩

/-- A TRANSPOSE that passed its checks. -/
theorem accepted_transpose {s : State} (h : check .transpose s = none) : (matrixSpan s).Accepted s.map :=
  (check_eq_none.1 h).2 _ (by simp [footprint])

/-- A COMPRESS with `COUNT > 0` that passed its checks. -/
theorem accepted_compress {s : State} (h : check .compress s = none) (hc : s.count ≠ 0) :
    (matrixSpan s).Accepted s.map ∧ ∀ k, (streamSpan s k).Accepted s.map :=
  ⟨(check_eq_none.1 h).2 _ ((mem_footprint_compress hc).2 (.inl rfl)),
    fun k => (check_eq_none.1 h).2 _ ((mem_footprint_compress hc).2 (.inr ⟨k, rfl⟩))⟩

/-- TRANSPOSE's memory (R132). -/
theorem fills_transposeBody {s : State} (hm : Memory.wf s.mem = true) (ha : s.base.toNat + 256 ≤ Config.addressSpace) :
    Fills s.mem (transposeBody s).mem s.base.toNat 256
      (fun x => vecByte ((transpose8 (readMat s.mem s.base.toNat)).get (Fin.ofNat 8 (x / 32))) (x % 32)) := by
  rw [transposeBody_mem]; exact fills_writeMat hm ha _

/-- Where the effect of a command that passed its checks may write (R47, R50), the canonical form kept. -/
theorem commandBody_mem_frame {i : Instr} {s : State} (hm : Memory.wf s.mem = true) (h : check i s = none) :
    Memory.wf (commandBody i s).mem = true ∧ MemSameOutside s (commandBody i s) s.base.toNat (writtenBytes i s) := by
  cases i with
  | normalize =>
    obtain ⟨hl, ha⟩ := accepted_normalize h
    have hf := fills_normalizeBody hl hm ha.inside
    exact ⟨hf.wf, fun x hx => hf.outside hx⟩
  | transpose =>
    have hf := fills_transposeBody hm (accepted_transpose h).inside
    exact ⟨hf.wf, fun x hx => hf.outside hx⟩
  | compress =>
    obtain ⟨h1, h2⟩ := compressBody_mem_frame hm fun hc => (accepted_compress h hc).1.inside
    refine ⟨h1, fun x hx => h2 x ?_⟩
    by_cases hc : s.count = 0
    · exact .inl hc
    · rw [writtenBytes, if_neg hc] at hx; exact .inr hx

/-! ### When a command does its work -/

theorem RangeReady.accepted {map : List Region} {a n : Nat} {w : Bool} (h : RangeReady map a n w) :
    Span.Accepted map { start := a, len := n, writes := w } :=
  ⟨h.aligned, h.inside, fun x hx => (h.covered x (Span.holds_iff.1 hx).1 (Span.holds_iff.1 hx).2).1⟩

theorem RangeReady.ordinary {map : List Region} {a n : Nat} {w : Bool} (h : RangeReady map a n w) (x : Nat)
    (hx : Span.holds { start := a, len := n, writes := w } x = true) : isDevice map x = false :=
  (h.covered x (Span.holds_iff.1 hx).1 (Span.holds_iff.1 hx).2).2

theorem NormalizeReady.lengthLegal {s : State} (h : NormalizeReady s) : lengthLegal s = true := by
  simp [Machine.lengthLegal, h.positive, h.chunked]

theorem exec_normalize_of_ready {s : State} (h : NormalizeReady s) : exec .normalize s = .next (normalizeBody s) := by
  refine runChecked_body (fun _ => h.lengthLegal) ?_ ?_ <;>
    simp only [footprint, List.mem_singleton, forall_eq]
  · exact h.buffer.accepted
  · exact h.buffer.ordinary

theorem exec_transpose_of_ready {s : State} (h : TransposeReady s) : exec .transpose s = .next (transposeBody s) := by
  refine runChecked_body (by simp) ?_ ?_ <;> simp only [footprint, List.mem_singleton, forall_eq]
  · exact RangeReady.accepted h
  · exact RangeReady.ordinary h

theorem exec_compress_of_ready {s : State} (hc : s.count ≠ 0) (h : CompressReady s) :
    exec .compress s = .next (compressBody s) := by
  refine runChecked_body (by simp) (fun sp hm => ?_) (fun sp hm => ?_) <;>
    rcases (mem_footprint_compress hc).1 hm with rfl | ⟨k, rfl⟩
  · exact h.matrix.accepted
  · exact (h.streams k).accepted
  · exact h.matrix.ordinary
  · exact (h.streams k).ordinary

theorem exec_compress_zero {s : State} (hc : s.count = 0) : exec .compress s = .next (finish s) := by
  rw [← compressBody_zero hc]
  refine runChecked_body (by simp) ?_ ?_ <;> simp [footprint, hc]

/-- The State matrix's columns after a COMPRESS that passed its checks without overlap (R153). -/
theorem compressBody_column {s : State} (hc : s.count ≠ 0) (h : CompressReady s) (ha : StreamsApart s)
    (hm : Memory.wf s.mem = true) (k : Fin 8) : stateColumn (compressBody s).mem s.base.toNat k =
      chainBlocks s.count.toNat (stateColumn s.mem s.base.toNat k) (streamBytes s k) := by
  rw [compressBody_mem hc (streamOverlap_eq_false.2 ha)]
  exact blocks_column s.count.toNat (s := enterCompress s) hm h.matrix.inside (fun k => (h.streams k).inside) ha k

/-! ### A reset in the middle of a command (R192) -/

/-- Ranges that are only read keep every byte. -/
theorem scrambleWritten_readOnly {d : Nat} {spans : List Span} (h : ∀ sp ∈ spans, sp.writes = false) (m : Memory) :
    scrambleWritten d spans m = m := by
  induction spans generalizing m with
  | nil => rfl
  | cons sp spans ih =>
    rw [scrambleWritten, List.foldl_cons, if_neg (by simp [h sp (by simp)])]
    exact ih (fun q hq => h q (by simp [hq])) m

/-- Every command has one range that it writes, from `BASE` on, or none. -/
theorem scrambleWritten_footprint (d : Nat) (i : Instr) (s : State) (m : Memory) :
    scrambleWritten d (footprint i s) m = scrambleBytes d m s.base.toNat (writtenBytes i s) := by
  cases i with
  | normalize => rfl
  | transpose =>
    rw [footprint, scrambleWritten, List.foldl_cons, List.foldl_nil, if_pos (show (matrixSpan s).writes = true from rfl)]
    simp only [matrixSpan, writtenBytes]
  | compress =>
    by_cases h : s.count = 0
    · rw [footprint, if_pos h, writtenBytes, if_pos h]; rfl
    · have hs : scrambleWritten d (octIndices.map (streamSpan s)) (scrambleBytes d m s.base.toNat 256) =
          scrambleBytes d m s.base.toNat 256 :=
        scrambleWritten_readOnly (fun sp hm => by obtain ⟨k, -, rfl⟩ := List.mem_map.1 hm; rfl) _
      rw [footprint, if_neg h, writtenBytes, if_neg h, ← hs]
      rw [scrambleWritten, List.foldl_cons, if_pos (show (matrixSpan s).writes = true from rfl)]
      simp only [matrixSpan, scrambleWritten]

/-- The range that a command which passed its checks writes lies inside the address space. -/
theorem writtenBytes_inside {i : Instr} {s : State} (h : check i s = none) (hp : writtenBytes i s ≠ 0) :
    s.base.toNat + writtenBytes i s ≤ Config.addressSpace := by
  cases i with
  | normalize => exact (accepted_normalize h).2.inside
  | transpose => exact (accepted_transpose h).inside
  | compress =>
    by_cases hc : s.count = 0
    · simp [writtenBytes, hc] at hp
    · rw [writtenBytes, if_neg hc]; exact (accepted_compress h hc).1.inside

/-- Such a reset keeps the canonical form and every byte outside the range that the command writes. -/
theorem scrambleWritten_frame (d : Nat) {i : Instr} {s : State} {m : Memory} (hm : Memory.wf m = true)
    (h : check i s = none) : Memory.wf (scrambleWritten d (footprint i s) m) = true ∧
      ∀ x, x < s.base.toNat ∨ s.base.toNat + writtenBytes i s ≤ x →
        readByte (scrambleWritten d (footprint i s) m) x = readByte m x := by
  rw [scrambleWritten_footprint]
  by_cases hp : writtenBytes i s = 0
  · rw [hp]; exact ⟨hm, fun _ _ => rfl⟩
  · have hf := fills_scrambleBytes d hm (writtenBytes_inside h hp)
    exact ⟨hf.wf, fun x hx => hf.outside hx⟩

end Sys2Proof.Machine
end

