-- ==== Sys2Proof/Laws/Host.lean ====
section
/-! SUPPORT. What a step does for each kind of the host's next transaction, once (R31, R73, R199), and the register map
read in both directions (R78). -/

namespace Sys2Proof.Machine

/-- A register lies at its own offset with its own width. -/
theorem regAt_offset (r : Reg) : regAt (regOffset r) (regWidth r) = some r := by
  cases r with
  | sp k => revert k; decide
  | reserved k => revert k; decide
  | upper k => revert k; decide
  | _ => rfl

/-- And nothing else does. -/
theorem regAt_eq_some {offset width : Nat} {r : Reg} :
    regAt offset width = some r ↔ offset = regOffset r ∧ width = regWidth r := by
  constructor
  · intro h
    have := List.find?_some h
    simp only [Bool.and_eq_true, decide_eq_true_eq] at this
    exact ⟨this.1.symm, this.2.symm⟩
  · rintro ⟨rfl, rfl⟩; exact regAt_offset r

/-- The host's write to `CMD` (R73). -/
theorem step_cmd {s : State} {rest : List Transaction} {cw : Word}
    (h : s.host = .regWrite 0x00 32 (cw.setWidth 64) :: rest) : step s = issue exec cw { s with host := rest } := by
  have hw : (Transaction.regWrite 0x00 32 (cw.setWidth 64)).wellFormed = true := by
    have := cw.isLt
    simp only [Transaction.wellFormed, writeLegal, accessLegal, show regAt 0 32 = some .cmd from rfl, Option.isSome_some,
      Bool.true_and, decide_eq_true_eq, BitVec.toNat_setWidth]
    omega
  have hv : (cw.setWidth 64).setWidth 32 = cw := BitVec.eq_of_toNat_eq (by have := cw.isLt; simp)
  simp only [step, h, hostTurn, registerWrite, hw, show regAt 0 32 = some .cmd from rfl, if_true, hv]

/-- The host's write to another register (R31). -/
theorem step_regWrite {s : State} {rest : List Transaction} {offset width : Nat} {v : BitVec 64} {r : Reg}
    (h : s.host = .regWrite offset width v :: rest) (hr : regAt offset width = some r) (hc : r ≠ .cmd)
    (hv : v.toNat < 2 ^ width) : step s = .next (writeReg r v { s with host := rest }) := by
  have hw : (Transaction.regWrite offset width v).wellFormed = true := by
    simp [Transaction.wellFormed, writeLegal, accessLegal, hr, hv]
  simp only [step, h, hostTurn, registerWrite, hw, hr, if_true]

/-- A register write that is refused (R31). -/
theorem step_regWrite_refused {s : State} {rest : List Transaction} {offset width : Nat} {v : BitVec 64}
    (h : s.host = .regWrite offset width v :: rest) (hw : writeLegal offset width v = false) :
    step s = .refused (.badRegisterAccess offset width) := by
  simp only [step, h, hostTurn, registerWrite, Transaction.wellFormed, hw, Bool.false_eq_true, if_false]

/-- The host's read of a register (R31). -/
theorem step_regRead {s : State} {rest : List Transaction} {offset width : Nat} {r : Reg}
    (h : s.host = .regRead offset width :: rest) (hr : regAt offset width = some r) :
    step s = .next (reply (readReg r s) { s with host := rest }) := by
  simp only [step, h, hostTurn, registerRead, hr]
  cases r <;> rfl

/-- A register read that is refused (R31). -/
theorem step_regRead_refused {s : State} {rest : List Transaction} {offset width : Nat}
    (h : s.host = .regRead offset width :: rest) (hr : regAt offset width = none) :
    step s = .refused (.badRegisterAccess offset width) := by
  simp only [step, h, hostTurn, registerRead, hr]

/-- The reset event (R190). -/
theorem step_reset {s : State} {rest : List Transaction} (h : s.host = .reset :: rest) :
    step s = .next (resetBlock { s with host := rest }) := by
  simp only [step, h, hostTurn]

/-- Everything a register write can answer that is no write to `CMD`. -/
theorem registerWrite_cases (run : Instr → State → Host.Outcome State Fault Refusal) (offset width : Nat) (v : BitVec 64)
    (s : State) : (offset = 0x00 ∧ width = 32 ∧ registerWrite run offset width v s = issue run (v.setWidth 32) s) ∨
      (∃ r, r ≠ .cmd ∧ registerWrite run offset width v s = .next (writeReg r v s)) ∨
      registerWrite run offset width v s = .refused (.badRegisterAccess offset width) := by
  unfold registerWrite
  split
  · split
    · rename_i hr
      obtain ⟨h1, h2⟩ := regAt_eq_some.1 hr
      exact .inl ⟨h1, h2, rfl⟩
    · rename_i r hn hr
      exact .inr (.inl ⟨r, hn, rfl⟩)
    · exact .inr (.inr rfl)
  · exact .inr (.inr rfl)

/-- What a write to a register other than `CMD` leaves alone. -/
theorem writeReg_keeps {r : Reg} (h : r ≠ .cmd) (v : BitVec 64) (s : State) : (writeReg r v s).cmd = s.cmd ∧
    (writeReg r v s).status = s.status ∧ (writeReg r v s).errinfo = s.errinfo ∧ (writeReg r v s).seq = s.seq ∧
    (writeReg r v s).mem = s.mem ∧ (writeReg r v s).map = s.map ∧ (writeReg r v s).host = s.host ∧
    (writeReg r v s).replies = s.replies := by
  cases r <;> first | exact absurd rfl h | exact ⟨rfl, rfl, rfl, rfl, rfl, rfl, rfl, rfl⟩

/-- Everything a command write can answer (R73): the command of the word, or the fault of a word that is none. -/
theorem issue_cases (run : Instr → State → Host.Outcome State Fault Refusal) (cw : Word) (s : State) :
    (∃ i, decode cw = .ok i ∧ issue run cw s = run i (beginCommand cw s)) ∨
      issue run cw s = .next (raise .illegalCmd (cw.setWidth 64) (beginCommand cw s)) := by
  unfold issue
  cases decode cw with
  | ok i => exact .inl ⟨i, rfl, rfl⟩
  | error e => exact .inr rfl

/-- Register writes one after another (R55, R79): they store their values, and the transactions after them are next. -/
theorem runHost_asmWr {rest : List Transaction} (l : List (Reg × BitVec 64)) (hc : ∀ e ∈ l, e.1 ≠ .cmd)
    (hw : ∀ e ∈ l, regWidth e.1 = 64) {s : State} (h : s.host = l.map (fun e => asmWr e.1 e.2) ++ rest) :
    runHost l.length s = .next (l.foldl (fun s e => writeReg e.1 e.2 s) { s with host := rest }) := by
  induction l generalizing s with
  | nil => cases s; cases h; rfl
  | cons e l ih =>
    have he := hc e (by simp)
    have h' : s.host = .regWrite (regOffset e.1) (regWidth e.1) e.2 :: (l.map (fun e => asmWr e.1 e.2) ++ rest) := h
    rw [List.length_cons, runHost, step_regWrite h' (regAt_offset e.1) he (by rw [hw e (by simp)]; exact e.2.isLt)]
    have hk := writeReg_keeps he e.2 { s with host := l.map (fun e => asmWr e.1 e.2) ++ rest }
    simp only [List.foldl_cons]
    rw [ih (fun e h => hc e (by simp [h])) (fun e h => hw e (by simp [h])) hk.2.2.2.2.2.2.1]
    congr 2
    obtain ⟨r, v⟩ := e
    cases r <;> rfl

/-- Writes of stream pointers one after another change the stream pointers alone. -/
theorem foldl_writeReg_sp (l : List (Fin 8)) (f : Fin 8 → Addr) (s : State) :
    (l.map fun k => (Reg.sp k, f k)).foldl (fun s e => writeReg e.1 e.2 s) s =
      { s with sp := l.foldl (fun v k => v.set k (f k)) s.sp } := by
  induction l generalizing s with
  | nil => rfl
  | cons k l ih => exact ih (writeReg (.sp k) (f k) s)

/-- All eight of them replaced. -/
theorem foldl_set_octIndices (v p : Oct Addr) :
    octIndices.foldl (fun v k => v.set k (p.get k)) v = p := by
  refine Oct.ext_get fun l => ?_
  revert l
  simp only [forall_fin8, octIndices, List.foldl_cons, List.foldl_nil, Oct.get_set]
  simp

/-- Everything an access of memory by the host can answer (R40, R51, R53). -/
theorem hostMemory_cases (a : Addr) (s : State) (access : State → State) :
    hostMemory a s access = .next (access s) ∨ hostMemory a s access = .fault (.hostNoMemory a) ∨
      hostMemory a s access = .refused (.hostDeviceAccess a) := by
  unfold hostMemory
  split
  · exact .inr (.inr rfl)
  · split
    · exact .inl rfl
    · exact .inr (.inl rfl)

/-- Everything a reset in the middle of a command can answer (R192), and when: an idle block over the old memory where
no command passes its checks, an idle block over a memory whose written ranges are unspecified, or the refusal of the
footprint. -/
theorem resetDuringCommand_cases (cw : Word) (s : State) :
    ((∀ i, decode cw = .ok i → check i s ≠ none) ∧ resetDuringCommand cw s = .next (resetBlock s)) ∨
    (∃ i, decode cw = .ok i ∧ check i s = none ∧ (footprint i s).any (touchesDevice s.map) = false ∧
      resetDuringCommand cw s = .next (resetBlock { s with mem := scrambleWritten s.draws (footprint i s) s.mem })) ∨
    ∃ i, decode cw = .ok i ∧ check i s = none ∧ (footprint i s).any (touchesDevice s.map) = true ∧
      resetDuringCommand cw s = .refused .deviceFootprint := by
  unfold resetDuringCommand
  cases decode cw with
  | error e => exact .inl ⟨by simp, rfl⟩
  | ok i =>
    cases h : check i s with
    | some e => exact .inl ⟨fun j hj => by cases hj; simp [h], by simp only [h]⟩
    | none =>
      cases h' : (footprint i s).any (touchesDevice s.map)
      · exact .inr (.inl ⟨i, rfl, h, h', by simp [h, h']⟩)
      · exact .inr (.inr ⟨i, rfl, h, h', by simp [h, h']⟩)

end Sys2Proof.Machine
end

