-- ==== Sys2Proof/Laws/PerInstr.lean ====
section
/-! SUPPORT. A statement about every command as syntax, one lemma per constructor. -/

namespace Sys2Proof.Laws.EncodingFields

/-- The encoding of a command has `RSV = 0` and the command's operation code in `OPC`, it is the only command with that
code, and every command is well-formed (R71, R72). -/
def Statement (i : Instr) : Prop :=
  i.wellFormed = true ∧ fieldRsv (encode i) = 0 ∧ fieldOpc (encode i) = opcode i ∧ instrOfOpcode (opcode i) = some i

theorem normalize : Statement .normalize := ⟨rfl, rfl, rfl, rfl⟩
theorem transpose : Statement .transpose := ⟨rfl, rfl, rfl, rfl⟩
theorem compress : Statement .compress := ⟨rfl, rfl, rfl, rfl⟩

end Sys2Proof.Laws.EncodingFields
end

