-- ==== Sys2Proof/Laws/Sequencer.lean ====
section
/-! SUPPORT. The phases of the sequencer (R25): how many steps of `tick` make a chunk, a round loop, a block, and that
the block is not idle on the way. -/

namespace Sys2Proof.Machine

theorem ticks_add (m n : Nat) (s : State) : ticks (m + n) s = ticks n (ticks m s) := by
  induction n with
  | zero => rw [Nat.add_zero, ticks]
  | succ n ih => rw [Nat.add_succ, ticks, ih, ticks]

theorem ticks_one (s : State) : ticks 1 s = tick s := by rw [ticks, ticks]

/-- `n` phases lead from `s` to `t`, and the block is idle at none of them before the last. -/
structure Busy (n : Nat) (s t : State) : Prop where
  reach : ticks n s = t
  busy : ∀ m < n, (ticks m s).seq.phase ≠ .idle

theorem Busy.zero (s : State) : Busy 0 s s := ⟨by rw [ticks], fun _ h => absurd h (Nat.not_lt_zero _)⟩

theorem Busy.one {s t : State} (h : tick s = t) (hp : s.seq.phase ≠ .idle) : Busy 1 s t := by
  refine ⟨(ticks_one s).trans h, fun m hm => ?_⟩
  obtain rfl : m = 0 := by omega
  rw [ticks]; exact hp

theorem Busy.trans {m n : Nat} {s t u : State} (h : Busy m s t) (h' : Busy n t u) : Busy (m + n) s u := by
  refine ⟨by rw [ticks_add, h.reach, h'.reach], fun j hj => ?_⟩
  by_cases hm : j < m
  · exact h.busy j hm
  · have e : j = m + (j - m) := by omega
    rw [e, ticks_add, h.reach]
    exact h'.busy _ (by omega)

/-! ### NORMALIZE -/

/-- The chunk index and the phase on the way. -/
theorem chunks_seq {s : State} (h : s.seq.c = 0) (n : Nat) (hn : n < chunkCount s) : (chunks n s).seq.c = n := by
  induction n with
  | zero => exact h
  | succ n ih =>
    have hk := chunks_keep n s
    have hc : chunkCount (chunks n s) = chunkCount s := by simp only [chunkCount, hk.count]
    rw [chunks, nextChunk_c (by rw [ih (by omega), hc]; exact hn), ih (by omega)]

theorem busy_chunks {s : State} (hp : s.seq.phase = .nChunk) (h : s.seq.c = 0) (n : Nat) (hn : n < chunkCount s) :
    Busy n s (chunks n s) := by
  induction n with
  | zero => rw [chunks]; exact Busy.zero s
  | succ n ih =>
    have hk := chunks_keep n s
    have hc : chunkCount (chunks n s) = chunkCount s := by simp only [chunkCount, hk.count]
    refine (ih (by omega)).trans (Busy.one ?_ (by rw [hk.phase, hp]; decide))
    have hph : (chunks n s).seq.phase = .nChunk := hk.phase.trans hp
    simp only [tick, hph, chunks_seq h n (by omega), hc, if_pos hn, chunks]

/-- A NORMALIZE after its checks: one phase a chunk. -/
theorem busy_normalize {s : State} (h : 0 < chunkCount s) : Busy (chunkCount s) (enterNormalize s) (normalizeBody s) := by
  obtain ⟨n, hn⟩ := Nat.exists_eq_add_of_lt h
  rw [Nat.zero_add] at hn
  have hc : chunkCount (enterNormalize s) = chunkCount s := by simp [chunkCount]
  have hp : (enterNormalize s).seq.phase = .nChunk := by simp
  have h0 : (enterNormalize s).seq.c = 0 := by simp
  have hk := chunks_keep n (enterNormalize s)
  have hph : (chunks n (enterNormalize s)).seq.phase = .nChunk := hk.phase.trans hp
  have hcc : chunkCount (chunks n (enterNormalize s)) = n + 1 := by
    have : chunkCount (chunks n (enterNormalize s)) = chunkCount (enterNormalize s) := by simp only [chunkCount, hk.count]
    omega
  have hci := chunks_seq h0 n (by omega)
  rw [hn, normalizeBody, hn, chunks]
  refine (busy_chunks hp h0 n (by omega)).trans (Busy.one ?_ (by rw [hph]; decide))
  simp only [tick, hph, hci, hcc, Nat.lt_irrefl, if_false]
  rw [nextChunk, if_neg (by simp [hci, hcc])]

/-! ### TRANSPOSE -/

theorem busy_transpose (s : State) : Busy 2 (enterTranspose s) (transposeBody s) := by
  have h1 : Busy 1 (enterTranspose s) (transposeRead (enterTranspose s)) :=
    Busy.one (by simp [tick]) (by simp)
  have h2 : Busy 1 (transposeRead (enterTranspose s)) (transposeBody s) :=
    Busy.one (by simp only [tick, transposeRead_seq, transposeBody]) (by simp)
  exact h1.trans h2

/-! ### COMPRESS -/

theorem busy_rounds {s : State} (hp : s.seq.phase = .cRound) (h : s.seq.i = 0) (n : Nat) (hn : n ≤ 64) :
    Busy n s (rounds n s) := by
  induction n with
  | zero => rw [rounds]; exact Busy.zero s
  | succ n ih =>
    have hph : (rounds n s).seq.phase = .cRound := (rounds_spec h n (by omega)).2.1.trans hp
    refine (ih (by omega)).trans (Busy.one ?_ (by rw [hph]; decide))
    simp only [tick, hph, rounds]

/-- One block, up to `C_ADVANCE`: 68 phases. -/
theorem busy_block {s : State} (hp : s.seq.phase = .cLoad) :
    Busy 68 s (compressFeed (rounds 64 (blockStart s))) := by
  have h1 : Busy 1 s (compressLoad s) := Busy.one (by simp only [tick, hp]) (by rw [hp]; decide)
  have h2 : Busy 1 (compressLoad s) (compressTranspose (compressLoad s)) :=
    Busy.one (by simp only [tick, compressLoad_seq]) (by simp)
  have h3 : Busy 1 (compressTranspose (compressLoad s)) (blockStart s) :=
    Busy.one (by simp only [tick, compressTranspose_seq, blockStart]) (by simp)
  have hr : (blockStart s).seq.phase = .cRound := by simp only [blockStart, compressCopy_seq]
  have h4 := busy_rounds hr (blockStart_i s) 64 le_rfl
  have hf : (rounds 64 (blockStart s)).seq.phase = .cFeed := (rounds_64 (blockStart_i s)).2
  have h5 : Busy 1 (rounds 64 (blockStart s)) (compressFeed (rounds 64 (blockStart s))) :=
    Busy.one (by simp only [tick, hf]) (by rw [hf]; decide)
  exact (((h1.trans h2).trans h3).trans h4).trans h5

/-- The sequencer after a block. -/
theorem compressBlock_seq (s : State) : (compressBlock s).seq.blk = (if s.seq.blk + 1 < s.count.toNat then
    s.seq.blk + 1 else s.seq.blk) ∧ (s.seq.blk + 1 < s.count.toNat → (compressBlock s).seq.phase = .cLoad) := by
  have h := rounds_keep 64 (blockStart s)
  have hb : (rounds 64 (blockStart s)).seq.blk = s.seq.blk := by
    rw [h.blk]; simp only [blockStart, compressCopy_seq, compressTranspose_seq, compressLoad_seq]
  have hc : (rounds 64 (blockStart s)).count = s.count := by
    rw [h.count]; simp only [blockStart, compressCopy_count, compressTranspose_count, compressLoad_count]
  rw [compressBlock_eq, compressAdvance_seq, compressFeed_seq, compressFeed_count, hb, hc]
  by_cases hl : s.seq.blk + 1 < s.count.toNat
  · simp only [hl, if_true, implies_true, and_self]
  · simp only [hl, if_false, hb, false_implies, and_self]

theorem blocks_seq {s : State} (hp : s.seq.phase = .cLoad) (h : s.seq.blk = 0) (n : Nat) (hn : n < s.count.toNat) :
    (blocks n s).seq.blk = n ∧ (blocks n s).seq.phase = .cLoad := by
  induction n with
  | zero => rw [blocks]; exact ⟨h, hp⟩
  | succ n ih =>
    obtain ⟨h1, h2⟩ := ih (by omega)
    have hc : (blocks n s).count = s.count := (blocks_keep n s).count
    obtain ⟨h3, h4⟩ := compressBlock_seq (blocks n s)
    rw [blocks]
    rw [h1, hc] at h3 h4
    rw [if_pos hn] at h3
    exact ⟨h3, h4 hn⟩

/-- `C_ADVANCE` of the block that follows `n` others. -/
theorem busy_advance {s : State} (n : Nat) (h1 : (blocks n s).seq.blk = n) (h2 : (blocks n s).seq.phase = .cLoad) :
    Busy 69 (blocks n s) (if n + 1 < s.count.toNat then blocks (n + 1) s else finishCompress (blocks (n + 1) s)) := by
  have hk := rounds_keep 64 (blockStart (blocks n s))
  have hb : (compressFeed (rounds 64 (blockStart (blocks n s)))).seq.blk = n := by
    rw [compressFeed_seq]
    simp only [hk.blk]
    simp only [blockStart, compressCopy_seq, compressTranspose_seq, compressLoad_seq, h1]
  have hc : (compressFeed (rounds 64 (blockStart (blocks n s)))).count = s.count := by
    rw [compressFeed_count, hk.count]
    simp only [blockStart, compressCopy_count, compressTranspose_count, compressLoad_count, (blocks_keep n s).count]
  have hp : (compressFeed (rounds 64 (blockStart (blocks n s)))).seq.phase = .cAdvance := by simp only [compressFeed_seq]
  refine (busy_block h2).trans (Busy.one ?_ (by rw [hp]; decide))
  simp only [tick, hp, hb, hc, blocks, compressBlock_eq]

theorem busy_blocks {s : State} (hp : s.seq.phase = .cLoad) (h : s.seq.blk = 0) (n : Nat) (hn : n < s.count.toNat) :
    Busy (69 * n) s (blocks n s) := by
  induction n with
  | zero => rw [blocks]; exact Busy.zero s
  | succ n ih =>
    obtain ⟨h1, h2⟩ := blocks_seq hp h n (by omega)
    have := busy_advance n h1 h2
    rw [if_pos hn] at this
    exact (ih (by omega)).trans this

/-- A COMPRESS with `COUNT > 0` after its checks: 69 phases a block. -/
theorem busy_compress {s : State} (hc : s.count ≠ 0) :
    Busy (69 * s.count.toNat) (enterCompress s) (compressBody s) := by
  have hpos : 0 < s.count.toNat := Nat.pos_of_ne_zero fun h => hc (BitVec.eq_of_toNat_eq h)
  obtain ⟨n, hn⟩ := Nat.exists_eq_add_of_lt hpos
  rw [Nat.zero_add] at hn
  have hp : (enterCompress s).seq.phase = .cLoad := by simp only [enterCompress_seq]
  have h0 : (enterCompress s).seq.blk = 0 := by simp only [enterCompress_seq]
  have hcc : (enterCompress s).count.toNat = n + 1 := by rw [enterCompress_count, hn]
  obtain ⟨h1, h2⟩ := blocks_seq hp h0 n (by omega)
  have ha := busy_advance n h1 h2
  rw [if_neg (by omega)] at ha
  rw [compressBody_pos hc, hn]
  exact (busy_blocks hp h0 n (by omega)).trans ha

end Sys2Proof.Machine
end

