-- ==== Sys2Proof/Tests/Slice0.lean ====
section
/-! SUPPORT. The model's own tests: words and examples written out from the spec, the refusals of `WellFormed`, and for
every statement with hypotheses a state and operands that meet them together (`witness_…`). -/

namespace Sys2Proof.Tests

open Sys2Proof.Machine

/-! ### Small states -/

/-- 64 KiB of ordinary memory from address 0, then one kilobyte that may only be read, then a device. -/
def board : List Region :=
  [{ base := 0, size := 0x10000, readable := true, writable := true, kind := .ordinary },
   { base := 0x10000, size := 0x400, readable := true, writable := false, kind := .ordinary },
   { base := 0x20000, size := 0x400, readable := true, writable := true, kind := .device }]

/-- The bytes `bs` from address `a` on, in an empty memory. -/
def bytesAt (a : Nat) (bs : List Byte) : Memory := (bs.foldl (fun e b => (writeByte e.1 e.2 b, e.2 + 1)) ([], a)).1

/-- A machine with the board's map. -/
def machine (base count : BitVec 64) (sp : Addr) (mem : Memory) : State :=
  { State.reset with map := board, base := base, count := count, sp := Oct.ofFn fun _ => sp, mem := mem }

def isNext : Host.Outcome State Fault Refusal → Bool
  | .next _ => true
  | .fault _ => false
  | .refused _ => false

/-- `f` of the next state, or a default. -/
def after {α : Type} (o : Host.Outcome State Fault Refusal) (f : State → α) (d : α) : α :=
  match o with
  | .next t => f t
  | .fault _ => d
  | .refused _ => d

theorem next_of_isNext {o : Host.Outcome State Fault Refusal} (h : isNext o = true) : ∃ t, o = .next t := by
  cases o with
  | next t => exact ⟨t, rfl⟩
  | fault f => cases h
  | refused r => cases h

/-! ### Command words, written from 30_encoding.md R71 and R72 -/

theorem test_word_normalize : decode 0b00000000000000000000000000000001 = .ok .normalize := by decide
theorem test_word_transpose : decode 0b00000000000000000000000000000010 = .ok .transpose := by decide
theorem test_word_compress : decode 0b00000000000000000000000000000011 = .ok .compress := by decide
theorem test_table_words : decodeTableWord 32 1 = some .normalize ∧ decodeTableWord 32 2 = some .transpose ∧
    decodeTableWord 32 3 = some .compress ∧ decodeTableWord 32 0 = none := by decide
theorem test_word_zero_is_illegal : decode 0x00000000 = .error (.unknownOpcode 0) := by decide
theorem test_word_four_is_illegal : decode 0x00000004 = .error (.unknownOpcode 4) := by decide
theorem test_reserved_bit_is_illegal : decode 0x00000103 = .error (.reservedBits 1) := by decide
theorem test_top_bit_is_illegal : decode 0x80000001 = .error (.reservedBits 0x800000) := by decide

/-! ### Ill-formed transactions (R31, R78, 93_implementation_defined.md entry U9) -/

theorem test_wrong_width_refused : (Transaction.regRead 0x18 32).wellFormed = false := by decide
theorem test_wrong_offset_refused : (Transaction.regRead 0x1C 64).wellFormed = false := by decide
theorem test_beyond_register_file_refused : (Transaction.regWrite 0x80 64 0).wellFormed = false := by decide
theorem test_wide_value_refused : (Transaction.regWrite 0x00 32 0x100000000).wellFormed = false := by decide
theorem test_legal_transactions : (Transaction.regWrite 0x00 32 0xFFFFFFFF).wellFormed = true ∧
    (Transaction.regRead 0x78 64).wellFormed = true ∧ (Transaction.regRead 0x0C 32).wellFormed = true ∧
    (Transaction.regWrite 0x38 64 0).wellFormed = true := by decide

/-! ### The worked examples of 40_datapath_primitives.md -/

theorem test_add_wraps : (0xDEADBEEF : Word) + 0x21524111 = 0 := by decide
theorem test_rotr : rotr 0x80000001 1 = 0xC0000000 ∧ rotr 0x12345678 8 = 0x78123456 := by decide
theorem test_shr : shr 0x80000001 3 = 0x10000000 ∧ shr 0xFFFFFFFF 10 = 0x003FFFFF := by decide
theorem test_ch : ch 0x510E527F 0x9B05688C 0x1F83D9AB = 0x1F85C98C := by decide
theorem test_maj : maj 0x6A09E667 0xBB67AE85 0x3C6EF372 = 0x3A6FE667 := by decide
theorem test_big_sigma : bigSigma0 0x6A09E667 = 0xCE20B47E ∧ bigSigma1 0x510E527F = 0x3587272B := by decide
theorem test_small_sigma : smallSigma0 0x12345678 = 0xE7FCE6EE ∧ smallSigma1 0x12345678 = 0xA1F78649 := by decide
theorem test_bswap32 : bswap32 0x12345678 = 0x78563412 := by decide
theorem test_shuffle : (List.range 32).map (vecByte (shuf (vecOfBytes fun p => BitVec.ofNat 8 p) bsMask)) =
    [3, 2, 1, 0, 7, 6, 5, 4, 11, 10, 9, 8, 15, 14, 13, 12, 19, 18, 17, 16, 23, 22, 21, 20, 27, 26, 25, 24, 31, 30, 29,
      28] := by decide +kernel

/-- The matrix of vector T1, `M[r][l] = 0x10 r + l`. -/
def t1Matrix : Mat := Oct.ofFn fun r => Oct.ofFn fun l => BitVec.ofNat 32 (0x10 * r.val + l.val)

/-- R106: `u[m]` holds column `m` of the upper four rows, then column `m + 4` of them. -/
theorem test_network_stage2 : (networkU (networkT t1Matrix)).x1 =
    ⟨0x01, 0x11, 0x21, 0x31, 0x05, 0x15, 0x25, 0x35⟩ := by decide +kernel

/-- R149's worked example: round 0 of the message "abc". -/
theorem test_round_zero : scalarRound 0x428A2F98 0x61626380 ⟨0x6a09e667, 0xbb67ae85, 0x3c6ef372, 0xa54ff53a, 0x510e527f,
    0x9b05688c, 0x1f83d9ab, 0x5be0cd19⟩ = ⟨0x5D6AEBCD, 0x6A09E667, 0xBB67AE85, 0x3C6EF372, 0xFA2A4622, 0x510E527F,
      0x9B05688C, 0x1F83D9AB⟩ := by decide +kernel

/-! ### The three commands -/

/-- N1 (95_test_vectors.md): the bytes `00 01 .. 3F`, `COUNT = 16`. -/
def n1State : State := machine 0 16 0 (bytesAt 0 ((List.range 64).map (BitVec.ofNat 8)))

theorem test_normalize_n1 : after (exec .normalize n1State) (fun t => (t.status,
    [0, 1, 2, 3, 60, 61, 62, 63].map (readByte t.mem))) (0, []) = (0x00000001, [3, 2, 1, 0, 63, 62, 61, 60]) := by
  decide +kernel

/-- P5, lines 1 to 5: a bad length is reported before a misaligned address. -/
theorem test_normalize_bad_length : after (exec .normalize (machine 0x404 12 0 [])) (fun t => (t.status, t.errinfo))
    (0, 0) = (0x00000022, 0xC) := by decide +kernel

/-- T1: row 1 of the result, at `BASE = 0x100`. -/
theorem test_transpose_t1 : after (exec .transpose (machine 0x100 0 0 (writeMat [] 0x100 t1Matrix)))
    (fun t => (readVec t.mem 0x120).toList) [] = [0x01, 0x11, 0x21, 0x31, 0x41, 0x51, 0x61, 0x71] := by decide +kernel

/-- 42_transpose.md, corner cases: `BASE = 0xFFFFFFFFFFFFFF20` runs past the top. -/
theorem test_transpose_range : after (exec .transpose (machine 0xFFFFFFFFFFFFFF20 0 0 []))
    (fun t => (t.status, t.errinfo)) (0, 0) = (0x00000042, 0xFFFFFFFFFFFFFF20) := by decide +kernel

/-- E1: the initial chaining value in every lane, all streams the padded empty message. -/
def e1State : State :=
  machine 0x1000 1 0x2000 (writeByte (writeMat [] 0x1000 ⟨bcast 0x6a09e667, bcast 0xbb67ae85, bcast 0x3c6ef372,
    bcast 0xa54ff53a, bcast 0x510e527f, bcast 0x9b05688c, bcast 0x1f83d9ab, bcast 0x5be0cd19⟩) 0x2000 0x80)

/-- The first word of the digest of the empty message (E1). -/
theorem test_compress_e1 : after (exec .compress e1State) (fun t => readWord t.mem 0x1000) 0 = 0xe3b0c442 := by
  decide +kernel

/-- The whole digest (E1), of the scalar function that a lane is measured against. -/
theorem test_scalar_digest : compressionFunction ⟨0x6a09e667, 0xbb67ae85, 0x3c6ef372, 0xa54ff53a, 0x510e527f, 0x9b05688c,
    0x1f83d9ab, 0x5be0cd19⟩ (fun j => if j = 0 then 0x80 else 0) = ⟨0xe3b0c442, 0x98fc1c14, 0x9afbf4c8, 0x996fb924,
      0x27ae41e4, 0x649b934c, 0xa495991b, 0x7852b855⟩ := by decide +kernel

/-- 43_compress.md, corner cases: a stream pointer that is not a multiple of 32. -/
theorem test_compress_misaligned : after (exec .compress (machine 0x1000 1 0x2010 [])) (fun t => (t.status, t.errinfo))
    (0, 0) = (0x00000032, 0x2010) := by decide +kernel

/-! ### Witnesses: ranges of the board -/

theorem board_covers {a n : Nat} {w : Bool} (h : a + n ≤ 0x10000) : MemoryCovers board a n w := by
  intro x h1 h2
  have hx : x < 65536 := by omega
  have h3 : ¬ 65536 ≤ x := by omega
  have h4 : ¬ 131072 ≤ x := by omega
  constructor
  · cases w <;> simp [isUnmapped, isReadable, isWritable, board, Region.covers, hx]
  · simp [isDevice, board, Region.covers, h4]

theorem board_range {a n : Nat} {w : Bool} (ha : a % 32 = 0) (h : a + n ≤ 0x10000) : RangeReady board a n w :=
  ⟨ha, by omega, board_covers h⟩

/-- Whole memory in use: the last 64 bytes of the board's memory. -/
theorem witness_normalize_ready : NormalizeReady (machine 0xFFC0 16 0 []) ∧ Memory.wf (machine 0xFFC0 16 0 []).mem = true :=
  ⟨⟨by decide, by decide, board_range (by decide) (by decide)⟩, rfl⟩

theorem witness_transpose_ready : TransposeReady (machine 0xFF00 0 0 []) ∧ Memory.wf (machine 0xFF00 0 0 []).mem = true :=
  ⟨board_range (by decide) (by decide), rfl⟩

theorem machine_compress {base count : BitVec 64} {sp : Addr} {mem : Memory} (h1 : base.toNat % 32 = 0)
    (h2 : base.toNat + 256 ≤ 0x10000) (h3 : sp.toNat % 32 = 0) (h4 : sp.toNat + 64 * count.toNat ≤ 0x10000) :
    CompressReady (machine base count sp mem) := by
  refine ⟨board_range h1 h2, fun k => ?_⟩
  have e : (machine base count sp mem).sp.get k = sp := by simp [machine]
  rw [e]
  exact board_range h3 h4

theorem machine_apart {base count : BitVec 64} {sp : Addr} {mem : Memory}
    (h : base.toNat + 256 ≤ sp.toNat ∨ sp.toNat + 64 * count.toNat ≤ base.toNat) : StreamsApart (machine base count sp mem) := by
  intro k
  have e : (machine base count sp mem).sp.get k = sp := by simp [machine]
  rw [e]; exact h

/-- CompressIsScalarSha256PerLane, CompressAccessOrder: one block right behind the State matrix, and one right before. -/
theorem witness_compress_ready : (machine 0x1000 1 0x1100 []).count.toNat ≠ 0 ∧ CompressReady (machine 0x1000 1 0x1100 []) ∧
    StreamsApart (machine 0x1000 1 0x1100 []) ∧ StreamsApart (machine 0x1000 1 0xFC0 []) ∧
    Memory.wf (machine 0x1000 1 0x1100 []).mem = true :=
  ⟨by decide, machine_compress (by decide) (by decide) (by decide) (by decide), machine_apart (.inl (by decide)),
    machine_apart (.inr (by decide)), rfl⟩

/-- OverlappingCompressCompletes: a stream that is the State matrix. -/
theorem witness_compress_overlap : (machine 0x1000 1 0x1000 []).count.toNat ≠ 0 ∧ CompressReady (machine 0x1000 1 0x1000 []) ∧
    ¬ StreamsApart (machine 0x1000 1 0x1000 []) ∧ Memory.wf (machine 0x1000 1 0x1000 []).mem = true :=
  ⟨by decide, machine_compress (by decide) (by decide) (by decide) (by decide), fun h => absurd (h 0) (by decide), rfl⟩

/-- CompressOfZeroBlocksDoesNothing: every other operand illegal. -/
theorem witness_compress_zero : (machine 0x1001 0 0x2003 []).count = 0 := rfl

/-- LanesAreIndependent: two machines of one length with different operands and other lanes. -/
theorem witness_lanes : (machine 0x1000 2 0x2000 []).count.toNat ≠ 0 ∧
    (machine 0x3000 2 0x4000 []).count = (machine 0x1000 2 0x2000 []).count ∧
    CompressReady (machine 0x1000 2 0x2000 []) ∧ StreamsApart (machine 0x1000 2 0x2000 []) ∧
    CompressReady (machine 0x3000 2 0x4000 []) ∧ StreamsApart (machine 0x3000 2 0x4000 []) ∧
    Memory.wf (machine 0x1000 2 0x2000 []).mem = true ∧ Memory.wf (machine 0x3000 2 0x4000 []).mem = true ∧
    stateColumn (machine 0x3000 2 0x4000 []).mem 0x3000 5 = stateColumn (machine 0x1000 2 0x2000 []).mem 0x1000 5 ∧
    ∀ x < 128, streamBytes (machine 0x3000 2 0x4000 []) 5 x = streamBytes (machine 0x1000 2 0x2000 []) 5 x :=
  ⟨by decide, rfl, machine_compress (by decide) (by decide) (by decide) (by decide), machine_apart (.inl (by decide)),
    machine_compress (by decide) (by decide) (by decide) (by decide), machine_apart (.inl (by decide)), rfl, rfl,
    by decide +kernel, fun _ _ => rfl⟩

/-- TwoCommandsChainLikeOne: two blocks and one. -/
theorem witness_chain : (2 : BitVec 64).toNat ≠ 0 ∧ (1 : BitVec 64).toNat ≠ 0 ∧
    (machine 0x1000 3 0x2000 []).count.toNat = (2 : BitVec 64).toNat + (1 : BitVec 64).toNat ∧
    CompressReady (machine 0x1000 3 0x2000 []) ∧ StreamsApart (machine 0x1000 3 0x2000 []) ∧
    Memory.wf (machine 0x1000 3 0x2000 []).mem = true :=
  ⟨by decide, by decide, by decide, machine_compress (by decide) (by decide) (by decide) (by decide),
    machine_apart (.inl (by decide)), rfl⟩

/-! ### Witnesses: the host interface -/

/-- IllegalCommandFaults: the words around the three commands, and a command with a reserved bit set. -/
theorem witness_illegal_words : ∀ cw ∈ [0x00000000#32, 0x00000004#32, 0x00000103#32, 0xFFFFFFFF#32],
    cw ≠ 0x00000001 ∧ cw ≠ 0x00000002 ∧ cw ≠ 0x00000003 := by simp

/-- OtherRegisterAccessesAreRefused, first clause: a wrong width, a wrong offset, one past the register file. -/
theorem witness_other_access : ∀ a ∈ [(0x04, 64), (0x1C, 64), (0x80, 64)], a ∉ [(0x00, 32), (0x04, 32), (0x08, 32),
    (0x0C, 32), (0x10, 64), (0x18, 64), (0x20, 64), (0x28, 64), (0x30, 64), (0x38, 64), (0x40, 64), (0x48, 64), (0x50, 64),
    (0x58, 64), (0x60, 64), (0x68, 64), (0x70, 64), (0x78, 64)] := by decide

/-- Its second clause, at the least value that is too wide. -/
theorem witness_wide_value : 2 ^ 32 ≤ (0x100000000 : BitVec 64).toNat := by decide

/-- OnlyCommandsAndResetChangeTheReport: a register write that completes, and a machine with none pending. -/
theorem witness_other_transaction : ∃ t, step { State.reset with host := [.regWrite 0x18 64 5] } = .next t ∧
    (∀ v, Transaction.regWrite 0x18 64 5 ≠ .regWrite 0x00 32 v) ∧ Transaction.regWrite 0x18 64 5 ≠ .reset ∧
    (∀ cw, Transaction.regWrite 0x18 64 5 ≠ .resetDuring cw) ∧ State.reset.host = [] :=
  ⟨_, rfl, by simp, by simp, by simp, rfl⟩

/-- HostMemoryAccesses: ordinary memory at its last address, no memory, a device. -/
theorem witness_host_memory : (isPresent board 0x103FF = true ∧ isDevice board 0x103FF = false) ∧
    isPresent board 0x10400 = false ∧ isDevice board 0x20000 = true := by decide

/-! ### Witnesses: the datapath and memory -/

/-- RotateAndShiftMoveBits, ChChoosesAndMajVotes, SigmaFunctionsCombineThreeBits, RoundBodyIsTheSha256Round: both ends of
each range. -/
theorem witness_ranges : (1 ≤ 1 ∧ 1 ≤ 31) ∧ (1 ≤ 31 ∧ 31 ≤ 31) ∧ 0 < 32 ∧ 31 < 32 ∧ 0 < 64 ∧ 63 < 64 := by decide

/-- RoundsKeepLanesApart: two scratch states that differ in lane 1 and agree on lane 0. -/
theorem witness_lane_zero : Scratch.zero ≠ { Scratch.zero with a := zeroMat.x0.set 1 7 } ∧
    (∀ r : Fin 8, (Scratch.zero.working.get r).get 0 =
      (({ Scratch.zero with a := zeroMat.x0.set 1 7 } : Scratch).working.get r).get 0) ∧
    ∀ j : Fin 16, (Scratch.zero.w.slot j).get 0 = (({ Scratch.zero with a := zeroMat.x0.set 1 7 } : Scratch).w.slot j).get 0 := by
  decide

/-- MemoryIsLittleEndian, WritesChangeOneByte: the last word and the last byte of the address space. -/
theorem witness_memory_top : Memory.wf [(0x10, 0x7F)] = true ∧ (2 ^ 64 - 4) + 4 ≤ 2 ^ 64 ∧ 2 ^ 64 - 1 < 2 ^ 64 := by
  decide

/-- WindowHoldsTheSchedule: the zero window and the block of zero bytes. -/
theorem witness_window : (∀ (k : Fin 8) (j : Fin 16), ((scratchRounds 0 Scratch.zero).w.slot j).get k =
      blockWord (fun _ => 0) j.val) ∧
    ∀ i < 64, scratchRounds (i + 1) Scratch.zero = roundStep i (scratchRounds i Scratch.zero) :=
  ⟨by decide +kernel, fun _ _ => rfl⟩

/-- WindowHoldsTheSchedule, the recurrence: both clauses at the ends of their ranges; no `t` meets both. -/
theorem witness_schedule : 0 < 16 ∧ 15 < 16 ∧ (16 ≤ 16 ∧ 16 < 64) ∧ (16 ≤ 63 ∧ 63 < 64) := by decide

/-! ### Witnesses: faults -/

theorem board_lowest_write {a n : Nat} (h1 : a ≤ 0x10000) (h2 : 0x10000 < a + n) :
    LowestIn (BlockedForWrite board) a n 0x10000 := by
  refine ⟨⟨h1, h2, .inr (by decide)⟩, fun y _ hy hn => ?_⟩
  have hy' : y < 65536 := hy
  rcases hn with hn | hn <;> simp [isReadable, isWritable, board, Region.covers, hy'] at hn

theorem board_lowest_read {a n : Nat} (h1 : a ≤ 0x10400) (h2 : 0x10400 < a + n) :
    LowestIn (BlockedForRead board) a n 0x10400 := by
  refine ⟨⟨h1, h2, show isReadable board 0x10400 = false by decide⟩, fun y _ hy hn => ?_⟩
  have hy' : y < 65536 ∨ (65536 ≤ y ∧ y < 66560) := by omega
  rcases hy' with hy' | ⟨hy1, hy2⟩
  · simp [BlockedForRead, isReadable, board, Region.covers, hy'] at hn
  · simp [BlockedForRead, isReadable, board, Region.covers, hy1, hy2] at hn

/-- NormalizeFaultTable: each of its clauses. -/
theorem witness_normalize_faults :
    ((machine 0 0 0 []).count.toNat = 0 ∧ (machine 0 12 0 []).count.toNat % 8 ≠ 0) ∧
    ((machine 1 8 0 []).count.toNat ≠ 0 ∧ (machine 1 8 0 []).count.toNat % 8 = 0 ∧ (machine 1 8 0 []).base.toNat % 32 ≠ 0) ∧
    ((machine 0xFFFFFFFFFFFFFFE0 16 0 []).base.toNat % 32 = 0 ∧
      2 ^ 64 < (machine 0xFFFFFFFFFFFFFFE0 16 0 []).base.toNat + 4 * (machine 0xFFFFFFFFFFFFFFE0 16 0 []).count.toNat) ∧
    ((machine 0xFFE0 16 0 []).base.toNat + 4 * (machine 0xFFE0 16 0 []).count.toNat ≤ 2 ^ 64 ∧
      LowestIn (BlockedForWrite (machine 0xFFE0 16 0 []).map) 0xFFE0 64 0x10000) :=
  ⟨⟨rfl, by decide⟩, ⟨by decide, by decide, by decide⟩, ⟨by decide, by decide⟩, by decide,
    board_lowest_write (by decide) (by decide)⟩

/-- TransposeFaultTable: each of its clauses; the second one address past the last legal `BASE`. -/
theorem witness_transpose_faults : (machine 0x104 0 0 []).base.toNat % 32 ≠ 0 ∧
    ((machine 0xFFFFFFFFFFFFFF20 0 0 []).base.toNat % 32 = 0 ∧
      2 ^ 64 < (machine 0xFFFFFFFFFFFFFF20 0 0 []).base.toNat + 256) ∧
    ((machine 0xFF20 0 0 []).base.toNat % 32 = 0 ∧ (machine 0xFF20 0 0 []).base.toNat + 256 ≤ 2 ^ 64 ∧
      LowestIn (BlockedForWrite (machine 0xFF20 0 0 []).map) 0xFF20 256 0x10000) :=
  ⟨by decide, ⟨by decide, by decide⟩, by decide, by decide, board_lowest_write (by decide) (by decide)⟩

/-- A machine whose stream 3 alone differs from the others. -/
def oddStream (base count : BitVec 64) (sp sp3 : Addr) : State :=
  { machine base count sp [] with sp := ⟨sp, sp, sp, sp3, sp, sp, sp, sp⟩ }

theorem oddStream_get (base count : BitVec 64) (sp sp3 : Addr) :
    (∀ j < (3 : Fin 8), (oddStream base count sp sp3).sp.get j = sp) ∧ (oddStream base count sp sp3).sp.get 3 = sp3 := by
  refine ⟨fun j hj => ?_, rfl⟩
  obtain rfl | rfl | rfl : j = 0 ∨ j = 1 ∨ j = 2 := by revert j; decide
  all_goals rfl

/-- CompressFaultTable, the first four clauses: `BASE`, then `SP[3]`, misaligned; `BASE`, then `SP[3]`, past the top. -/
theorem witness_compress_faults : (machine 0x1008 1 0x2000 []).count.toNat ≠ 0 ∧
    (machine 0x1008 1 0x2000 []).base.toNat % 32 ≠ 0 ∧
    ((oddStream 0x1000 1 0x2000 0x2010).base.toNat % 32 = 0 ∧ ((oddStream 0x1000 1 0x2000 0x2010).sp.get 3).toNat % 32 ≠ 0 ∧
      ∀ j < (3 : Fin 8), ¬ ((oddStream 0x1000 1 0x2000 0x2010).sp.get j).toNat % 32 ≠ 0) ∧
    ((∀ k : Fin 8, ¬ ((machine 0xFFFFFFFFFFFFFF20 1 0x2000 []).sp.get k).toNat % 32 ≠ 0) ∧
      2 ^ 64 < (machine 0xFFFFFFFFFFFFFF20 1 0x2000 []).base.toNat + 256) ∧
    (2 ^ 64 < ((oddStream 0x1000 1 0x2000 0xFFFFFFFFFFFFFFE0).sp.get 3).toNat + 64 * 1 ∧
      ∀ j < (3 : Fin 8), ¬ 2 ^ 64 < ((oddStream 0x1000 1 0x2000 0xFFFFFFFFFFFFFFE0).sp.get j).toNat + 64 * 1) := by
  refine ⟨by decide, by decide, ⟨by decide, by decide, by decide⟩, ⟨by decide, by decide⟩, by decide, by decide⟩

/-- CompressFaultTable, the last two clauses: the State range runs into memory that may not be written; stream 3 runs
past the memory that may be read, and no stream before it does. -/
theorem witness_compress_unmapped : LowestIn (BlockedForWrite board) 0xFFE0 256 0x10000 ∧
    (∀ x, 0x1000 ≤ x → x < 0x1100 → ¬ BlockedForWrite board x) ∧
    (∀ j < (3 : Fin 8), ¬ ∃ x, ((oddStream 0x1000 1 0x2000 0x103E0).sp.get j).toNat ≤ x ∧
      x < ((oddStream 0x1000 1 0x2000 0x103E0).sp.get j).toNat + 64 * 1 ∧ BlockedForRead board x) ∧
    LowestIn (BlockedForRead board) ((oddStream 0x1000 1 0x2000 0x103E0).sp.get 3).toNat (64 * 1) 0x10400 := by
  refine ⟨board_lowest_write (by decide) (by decide), fun x h1 h2 hn => ?_, fun j hj => ?_,
    board_lowest_read (by decide) (by decide)⟩
  · have hx : x < 65536 := by omega
    rcases hn with hn | hn <;> simp [isReadable, isWritable, board, Region.covers, hx] at hn
  · rw [(oddStream_get _ _ _ _).1 j hj]
    rintro ⟨x, h1, h2, hn⟩
    have hx : x < 65536 := by
      have : (0x2000 : Addr).toNat = 8192 := rfl
      omega
    simp [BlockedForRead, isReadable, board, Region.covers, hx] at hn

/-- BadLengthIsNormalizeAlone, FaultsArePrecise, EveryCommandWritesItsReport: a command that ends as a fault. -/
theorem witness_faulting_command : ∃ t, exec .normalize (machine 0 12 0 []) = .next t ∧ statusErr t.status = true :=
  ⟨_, rfl, rfl⟩

/-- DeviceFootprintIsRefused, ResetDuringACommand's last clause: a NORMALIZE's buffer, a TRANSPOSE's matrix, a COMPRESS's
State range, and one of its streams, at a device. -/
theorem witness_device :
    (check .normalize (machine 0x20000 8 0 []) = none ∧ { start := 0x20000, len := 32, writes := true } ∈
      footprint .normalize (machine 0x20000 8 0 [])) ∧
    (check .transpose (machine 0x20000 0 0 []) = none ∧ { start := 0x20000, len := 256, writes := true } ∈
      footprint .transpose (machine 0x20000 0 0 [])) ∧
    (check .compress (machine 0x20000 1 0x2000 []) = none ∧ { start := 0x20000, len := 256, writes := true } ∈
      footprint .compress (machine 0x20000 1 0x2000 [])) ∧
    (check .compress (oddStream 0x1000 1 0x2000 0x20000) = none ∧ { start := 0x20000, len := 64, writes := false } ∈
      footprint .compress (oddStream 0x1000 1 0x2000 0x20000)) ∧
    isDevice board 0x20000 = true ∧ decode 1 = .ok .normalize ∧ decode 2 = .ok .transpose ∧ decode 3 = .ok .compress := by
  decide +kernel

/-- ResetDuringACommand: a COMPRESS of no blocks, a command of each kind that fails a check, a word that is no command
(the others stand in witness_normalize_ready, witness_transpose_ready, witness_compress_ready, witness_device). -/
theorem witness_reset_during : (machine 0x1001 0 0x2003 []).count.toNat = 0 ∧ Memory.wf (machine 0x1001 0 0x2003 []).mem = true ∧
    check .normalize (machine 0x400 12 0 []) ≠ none ∧ check .transpose (machine 0x104 0 0 []) ≠ none ∧
    check .compress (machine 0x1000 1 0x2010 []) ≠ none ∧
    ((0 : Word) ≠ 0x00000001 ∧ (0 : Word) ≠ 0x00000002 ∧ (0 : Word) ≠ 0x00000003) := by
  decide +kernel

/-! ### Witnesses: the whole machine -/

/-- NoCommandWritesItsOperands, CommandsWriteInsideTheirFootprint, AccessesStayInsideTheFootprint: every command ends with
its own effect somewhere. -/
theorem witness_commands_complete : (∃ t, exec .normalize n1State = .next t) ∧
    (∃ t, exec .transpose (machine 0x100 0 0 []) = .next t) ∧ (∃ t, exec .compress (machine 0x1000 1 0x2000 []) = .next t) ∧
    Memory.wf n1State.mem = true ∧ Memory.wf (machine 0x100 0 0 []).mem = true ∧
    Memory.wf (machine 0x1000 1 0x2000 []).mem = true :=
  ⟨next_of_isNext (by decide +kernel), next_of_isNext (by decide +kernel), next_of_isNext (by decide +kernel),
    by decide +kernel, rfl, rfl⟩

/-- ResultsDependOnTheFootprintAlone: two machines that differ in `CMD`, in scratch and in memory outside the footprint. -/
theorem witness_footprint_alone : (∃ t, exec .transpose (machine 0x100 0 0 []) = .next t) ∧
    (∃ t, exec .transpose { machine 0x100 0 0 [(0x800, 7)] with cmd := 9 } = .next t) ∧
    (∀ sp ∈ footprint .transpose (machine 0x100 0 0 []), ∀ x, sp.start ≤ x → x < sp.start + sp.len →
      readByte (machine 0x100 0 0 [(0x800, 7)]).mem x = readByte (machine 0x100 0 0 []).mem x) ∧
    Memory.wf [(0x800, 7)] = true := by
  refine ⟨next_of_isNext (by decide +kernel), next_of_isNext (by decide +kernel), fun sp hm x _ h2 => ?_, by decide⟩
  simp only [footprint, List.mem_singleton] at hm
  subst hm
  have hx : x < 2048 := by
    have : (matrixSpan (machine 0x100 0 0 [])).start + (matrixSpan (machine 0x100 0 0 [])).len = 512 := rfl
    omega
  simp [machine, readByte, hx]

/-- EveryStepKeepsTheInvariant: the state after reset with a command pending, and its step. -/
theorem witness_invariant : MachineInv (State.reset.withFetchWord 32 2) ∧ ∃ t, step (State.reset.withFetchWord 32 2) = .next t :=
  ⟨⟨rfl, rfl, fun _ => rfl, rfl⟩, next_of_isNext (by decide +kernel)⟩

/-- PhasesRefineTheCommand: a TRANSPOSE; EveryCommandEnds: the state it starts in. -/
theorem witness_phases : decode 0x00000002 = .ok .transpose ∧
    (∃ t, exec .transpose (beginCommand 0x00000002 (machine 0x100 0 0 [])) = .next t) ∧
    (beginCommand 0x00000002 (machine 0x100 0 0 [])).seq.phase = .check :=
  ⟨by decide, next_of_isNext (by decide +kernel), rfl⟩

/-! ### Steps from reset -/

/-- A command runs as the first transaction after reset: `COUNT` is named 0 there, so NORMALIZE reports a bad length and
COMPRESS does nothing (notes/assumptions/1.md). -/
theorem test_first_commands : [1, 2, 3].map (fun w => after (step (State.reset.withFetchWord 32 w)) (fun t => t.status) 0) =
    [0x00000022, 0x00000001, 0x00000001] := by decide +kernel

/-- P5, lines 14 to 16: a reserved bit on the opcode of COMPRESS. -/
theorem test_illegal_command : after (step (State.reset.withFetchWord 32 0x103))
    (fun t => (t.cmd, t.status, t.errinfo)) (0, 0, 0) = (0x103, 0x00000012, 0x103) := by decide +kernel

end Sys2Proof.Tests
end

/-! ## The family `00_scope.md`: the phases of a command, and what a command's result depends on -/

namespace Sys2Proof.Machine

/-! ### From `CHECK` to `IDLE` (R9, R25) -/

/-- The phase `CHECK` of a command that passes its checks enters the command. -/
theorem tick_check_pass {i : Instr} {s : State} (hp : s.seq.phase = .check) (hd : decode s.cmd = .ok i)
    (hc : check i s = none) : tick s = enterCommand i s := by
  simp only [tick, hp, tickCheck, hd, hc]

/-- The phase `CHECK` of a command that fails a check raises that fault. -/
theorem tick_check_fault {i : Instr} {s : State} {f : CmdFault} {info : BitVec 64} (hp : s.seq.phase = .check)
    (hd : decode s.cmd = .ok i) (hc : check i s = some (f, info)) : tick s = raise f info s := by
  simp only [tick, hp, tickCheck, hd, hc]

/-- A command that fails a check is over after `CHECK`. -/
theorem busy_fault {i : Instr} {s : State} {f : CmdFault} {info : BitVec 64} (hp : s.seq.phase = .check)
    (hd : decode s.cmd = .ok i) (hc : check i s = some (f, info)) : Busy (phaseCount i s) s (raise f info s) := by
  simp only [phaseCount, hc]
  exact Busy.one (tick_check_fault hp hd hc) (by rw [hp]; decide)

/-- A NORMALIZE that passes its checks has a chunk to do (R121). -/
theorem chunkCount_pos {s : State} (h : check .normalize s = none) : 0 < chunkCount s := by
  have hl := (accepted_normalize h).1
  have h8 := chunkCount_of_lengthLegal hl
  simp only [lengthLegal, Bool.and_eq_true, decide_eq_true_eq] at hl
  omega

/-- A command that passes its checks reaches its effect in `phaseCount` phases. -/
theorem busy_command {i : Instr} {s : State} (hp : s.seq.phase = .check) (hd : decode s.cmd = .ok i)
    (hc : check i s = none) : Busy (phaseCount i s) s (commandBody i s) := by
  have enter : Busy 1 s (enterCommand i s) := Busy.one (tick_check_pass hp hd hc) (by rw [hp]; decide)
  simp only [phaseCount, hc]
  cases i with
  | normalize => exact enter.trans (busy_normalize (chunkCount_pos hc))
  | transpose => exact enter.trans (busy_transpose s)
  | compress =>
    by_cases h0 : s.count = 0
    · rw [enterCommand, if_pos h0, ← compressBody_zero h0] at enter
      rw [h0]
      exact enter
    · rw [enterCommand, if_neg h0] at enter
      exact enter.trans (busy_compress h0)

/-- Settles O56: `CHECK` either raises the fault that ends the command, or enters it, and each command's phases were
counted from there. -/
theorem phasesRefineTheCommand : Obligations.PhasesRefineTheCommand := by
  intro s t cw i hd hx
  have hp : (beginCommand cw s).seq.phase = .check := rfl
  have hb : Busy (phaseCount i (beginCommand cw s)) (beginCommand cw s) t := by
    rcases exec_next hx with ⟨f, info, hc, rfl⟩ | ⟨hc, -, rfl⟩
    · exact busy_fault hp hd hc
    · exact busy_command hp hd hc
  exact ⟨hb.reach, hb.busy⟩

/-! ### What a command's result depends on (R7, R51, R157) -/

/-- `s` and `s'` have the same operands and map, and the same bytes in the footprint of `i`. -/
structure SameInputs (i : Instr) (s s' : State) : Prop where
  base : s'.base = s.base
  count : s'.count = s.count
  sp : s'.sp = s.sp
  map : s'.map = s.map
  bytes : ∀ sp ∈ footprint i s, ∀ x, sp.start ≤ x → x < sp.start + sp.len → readByte s'.mem x = readByte s.mem x

/-- A command that fails a check and completes has raised that fault. -/
theorem eq_raise_of_exec {i : Instr} {s t : State} {e : CmdFault × BitVec 64} (hc : check i s = some e)
    (h : exec i s = .next t) : t = raise e.1 e.2 s := by
  rw [exec_eq, runChecked_fault hc] at h
  exact (Host.Outcome.next.inj h).symm

/-- A command that passes its checks and completes has had its effect. -/
theorem eq_commandBody_of_exec {i : Instr} {s t : State} (hc : check i s = none) (h : exec i s = .next t) :
    t = commandBody i s := by
  rcases exec_next h with ⟨f, info, hf, -⟩ | ⟨-, -, ht⟩
  · rw [hc] at hf; cases hf
  · exact ht

/-- What a command writes is a range of its footprint (R47). -/
theorem written_mem_footprint {i : Instr} {s : State} (h : writtenBytes i s ≠ 0) :
    { start := s.base.toNat, len := writtenBytes i s, writes := true } ∈ footprint i s := by
  cases i with
  | normalize => exact List.mem_singleton.2 rfl
  | transpose => exact List.mem_singleton.2 rfl
  | compress =>
    have hc : s.count ≠ 0 := fun hc => h (if_pos hc)
    rw [writtenBytes, if_neg hc]
    exact (mem_footprint_compress hc).2 (.inl rfl)

/-- A matrix is determined by its columns. -/
theorem readMat_eq_of_columns {m m' : Memory} {a : Nat} (h : ∀ k, stateColumn m' a k = stateColumn m a k) :
    readMat m' a = readMat m a := by
  refine Oct.ext_get fun r => Oct.ext_get fun k => ?_
  have := congrArg (fun v => v.get r) (h k)
  simpa only [stateColumn, Oct.get_ofFn] using this

/-- The bytes under a matrix are determined by it. -/
theorem readByte_eq_of_readMat {m m' : Memory} {a x : Nat} (h : readMat m' a = readMat m a) (h1 : a ≤ x)
    (h2 : x < a + 256) : readByte m' x = readByte m x := by
  obtain ⟨j, rfl⟩ := Nat.exists_eq_add_of_le h1
  have hv : (Fin.ofNat 8 (j / 32)).val = j / 32 := Nat.mod_eq_of_lt (by omega)
  have byte (m : Memory) : readByte m (a + j) = vecByte ((readMat m a).get (Fin.ofNat 8 (j / 32))) (j % 32) := by
    rw [get_readMat, vecByte_readVec _ _ _ (Nat.mod_lt _ (by decide)), hv, Nat.add_assoc, Nat.div_add_mod]
  rw [byte, byte, h]

namespace SameInputs

variable {i : Instr} {s s' : State}

theorem footprint_eq (h : SameInputs i s s') : footprint i s' = footprint i s := by
  have hs : streamSpan s' = streamSpan s := funext fun k => by simp only [streamSpan, h.sp, h.count]
  cases i <;> simp only [footprint, matrixSpan, hs, h.base, h.count]

theorem check_eq (h : SameInputs i s s') : check i s' = check i s := by
  have hl : lengthLegal s' = lengthLegal s := by simp only [lengthLegal, h.count]
  rw [check, check, hl, h.footprint_eq, h.map, h.count]

/-- The range that the command writes holds the same bytes before it. -/
theorem written (h : SameInputs i s s') (x : Nat) (h1 : s.base.toNat ≤ x) (h2 : x < s.base.toNat + writtenBytes i s) :
    readByte s'.mem x = readByte s.mem x :=
  h.bytes _ (written_mem_footprint (by omega)) x h1 h2

/-- NORMALIZE writes bytes of the range it writes (R123). -/
theorem normalizeBody_bytes (h : SameInputs .normalize s s') (hm : Memory.wf s.mem = true)
    (hm' : Memory.wf s'.mem = true) (hc : check .normalize s = none) (x : Nat) (h1 : s.base.toNat ≤ x)
    (h2 : x < s.base.toNat + writtenBytes .normalize s) :
    readByte (normalizeBody s').mem x = readByte (normalizeBody s).mem x := by
  obtain ⟨hl, ha⟩ := accepted_normalize hc
  obtain ⟨hl', ha'⟩ := accepted_normalize (h.check_eq.trans hc)
  have hf := fills_normalizeBody hl hm ha.inside
  have hf' := fills_normalizeBody hl' hm' ha'.inside
  rw [h.base, h.count] at hf'
  have hc8 := chunkCount_of_lengthLegal hl
  simp only [writtenBytes] at h2
  obtain ⟨j, rfl⟩ := Nat.exists_eq_add_of_le h1
  rw [hf.inside (by omega), hf'.inside (by omega)]
  exact h.written _ (by omega) (by simp only [writtenBytes]; omega)

/-- TRANSPOSE writes the transpose of the matrix it reads (R132). -/
theorem transposeBody_bytes (h : SameInputs .transpose s s') (hm : Memory.wf s.mem = true)
    (hm' : Memory.wf s'.mem = true) (hc : check .transpose s = none) (x : Nat) (h1 : s.base.toNat ≤ x)
    (h2 : x < s.base.toNat + writtenBytes .transpose s) :
    readByte (transposeBody s').mem x = readByte (transposeBody s).mem x := by
  have ha : s.base.toNat + 256 ≤ Config.addressSpace := (accepted_transpose hc).inside
  have hr : readMat s'.mem s.base.toNat = readMat s.mem s.base.toNat :=
    readMat_congr fun j hj => h.written _ (by omega) (by simp only [writtenBytes]; omega)
  refine readByte_eq_of_readMat ?_ h1 h2
  rw [transposeBody_mem, transposeBody_mem, h.base, readMat_writeMat hm ha, readMat_writeMat hm' ha, hr]

/-- COMPRESS writes, lane by lane, the scalar function of the lane's column and its stream's bytes (R153). -/
theorem compressBody_bytes (h : SameInputs .compress s s') (hm : Memory.wf s.mem = true)
    (hm' : Memory.wf s'.mem = true) (hc : check .compress s = none) (h0 : s.count ≠ 0) (ha : StreamsApart s) (x : Nat)
    (h1 : s.base.toNat ≤ x) (h2 : x < s.base.toNat + 256) :
    readByte (compressBody s').mem x = readByte (compressBody s).mem x := by
  have hmat : s.base.toNat + 256 ≤ Config.addressSpace := (accepted_compress hc h0).1.inside
  have hstr (k : Fin 8) : (s.sp.get k).toNat + 64 * s.count.toNat ≤ Config.addressSpace :=
    ((accepted_compress hc h0).2 k).inside
  have hw : writtenBytes .compress s = 256 := if_neg h0
  have h0' : s'.count ≠ 0 := by rwa [h.count]
  have ha' : StreamsApart s' := by simpa only [StreamsApart, h.base, h.sp, h.count] using ha
  have hcol (k : Fin 8) : stateColumn s'.mem s.base.toNat k = stateColumn s.mem s.base.toNat k := by
    rw [stateColumn, stateColumn, readMat_congr fun j hj => h.written _ (by omega) (by omega)]
  have hstream (k : Fin 8) (j : Nat) (hj : j < 64 * s.count.toNat) :
      readByte s'.mem ((s.sp.get k).toNat + j) = readByte s.mem ((s.sp.get k).toNat + j) :=
    h.bytes (streamSpan s k) ((mem_footprint_compress h0).2 (.inr ⟨k, rfl⟩)) _ (by simp [streamSpan])
      (by simp [streamSpan, hj])
  refine readByte_eq_of_readMat (readMat_eq_of_columns fun k => ?_) h1 h2
  rw [compressBody_mem h0 (streamOverlap_eq_false.2 ha), compressBody_mem h0' (streamOverlap_eq_false.2 ha'), h.count]
  have hb := blocks_column s.count.toNat (s := enterCompress s) hm hmat hstr ha k
  have hb' := blocks_column s.count.toNat (s := enterCompress s') hm' (by simpa [h.base] using hmat)
    (fun k => by simpa [h.sp] using hstr k) (by simpa [StreamsApart, h.count] using ha') k
  simp only [enterCompress_base, enterCompress_mem, enterCompress_scratch, h.base, h.sp] at hb hb'
  rw [hb, hb', hcol, chainBlocks_congr (hstream k)]

/-- The effect of a command that passes its checks, in the range that it writes. -/
theorem commandBody_bytes (h : SameInputs i s s') (hm : Memory.wf s.mem = true) (hm' : Memory.wf s'.mem = true)
    (hc : check i s = none) (ha : i = .compress → s.count.toNat ≠ 0 → StreamsApart s) (x : Nat)
    (h1 : s.base.toNat ≤ x) (h2 : x < s.base.toNat + writtenBytes i s) :
    readByte (commandBody i s').mem x = readByte (commandBody i s).mem x := by
  cases i with
  | normalize => exact h.normalizeBody_bytes hm hm' hc x h1 h2
  | transpose => exact h.transposeBody_bytes hm hm' hc x h1 h2
  | compress =>
    have h0 : s.count ≠ 0 := fun h0 => by simp only [writtenBytes, if_pos h0] at h2; omega
    rw [writtenBytes, if_neg h0] at h2
    exact h.compressBody_bytes hm hm' hc h0 (ha rfl fun hz => h0 (BitVec.eq_of_toNat_eq hz)) x h1 h2

end SameInputs

/-- Settles O50: the checks read operands and map only, so both machines take the same way; a fault leaves the bytes of
the footprint, and a command's effect writes a function of them. -/
theorem resultsDependOnTheFootprintAlone : Obligations.ResultsDependOnTheFootprintAlone := by
  intro i s s' t t' hm hm' hbase hcount hsp hmap hbytes ha hx hx'
  have h : SameInputs i s s' := ⟨hbase, hcount, hsp, hmap, hbytes⟩
  cases hc : check i s with
  | some e =>
    rw [eq_raise_of_exec hc hx, eq_raise_of_exec (h.check_eq.trans hc) hx']
    exact ⟨rfl, rfl, h.written⟩
  | none =>
    rw [eq_commandBody_of_exec hc hx, eq_commandBody_of_exec (h.check_eq.trans hc) hx']
    have he := (commandBody_keeps i s).2
    have he' := (commandBody_keeps i s').2
    exact ⟨he'.status.trans he.status.symm, he'.errinfo.trans he.errinfo.symm, h.commandBody_bytes hm hm' hc ha⟩

end Sys2Proof.Machine

/-! ## The family `10_state.md`: the register file, the report of a command, the invariant, and that every command ends -/

namespace Sys2Proof.Machine

/-! ### The invariant (R15, R16, R25) -/

/-- A command that ended normally over a memory in canonical form. -/
theorem EndedWell.machineInv {t : State} (h : EndedWell t) (hm : Memory.wf t.mem = true) : MachineInv t where
  memWf := hm
  statusLegal := by rw [h.status]; decide
  errinfoZero := fun _ => h.errinfo
  idle := h.idle

/-- A fault reports itself, so `ERRINFO` may hold anything (R178). -/
theorem machineInv_raise {s : State} (f : CmdFault) (info : BitVec 64) (hm : Memory.wf s.mem = true) :
    MachineInv (raise f info s) where
  memWf := hm
  statusLegal := by simp
  errinfoZero := by simp
  idle := by simp

/-- The reset event clears the report (R190). -/
theorem machineInv_resetBlock {s : State} (hm : Memory.wf s.mem = true) : MachineInv (resetBlock s) where
  memWf := hm
  statusLegal := by rw [resetBlock_status]; decide
  errinfoZero := fun _ => resetBlock_errinfo s
  idle := by simp

/-- Whatever `STATUS`, `ERRINFO` and the phase were, a command that completes leaves the invariant. -/
theorem machineInv_of_exec {i : Instr} {s t : State} (hm : Memory.wf s.mem = true) (h : exec i s = .next t) :
    MachineInv t := by
  rcases exec_next h with ⟨f, info, -, rfl⟩ | ⟨hc, -, rfl⟩
  · exact machineInv_raise f info hm
  · exact (commandBody_keeps i s).2.machineInv (commandBody_mem_frame hm hc).1

theorem machineInv_of_issue {cw : Word} {s t : State} (hm : Memory.wf s.mem = true)
    (h : issue exec cw s = .next t) : MachineInv t := by
  rcases issue_cases exec cw s with ⟨i, -, e⟩ | e
  · exact machineInv_of_exec (s := beginCommand cw s) hm (e.symm.trans h)
  · obtain rfl := Host.Outcome.next.inj (e.symm.trans h)
    exact machineInv_raise _ _ hm

theorem machineInv_of_resetDuring {cw : Word} {s t : State} (hm : Memory.wf s.mem = true)
    (h : resetDuringCommand cw s = .next t) : MachineInv t := by
  rcases resetDuringCommand_cases cw s with ⟨-, e⟩ | ⟨i, -, hc, -, e⟩ | ⟨i, -, -, -, e⟩
  · obtain rfl := Host.Outcome.next.inj (e.symm.trans h)
    exact machineInv_resetBlock hm
  · obtain rfl := Host.Outcome.next.inj (e.symm.trans h)
    exact machineInv_resetBlock (s := { s with mem := scrambleWritten s.draws (footprint i s) s.mem })
      (scrambleWritten_frame s.draws hm hc).1
  · cases e.symm.trans h

/-! ### What a transaction that is no command and no reset leaves alone (R31, R180) -/

/-- The report and the sequencer are as they were, and the memory is in canonical form if it was. -/
structure KeepsReport (s t : State) : Prop where
  cmd : t.cmd = s.cmd
  status : t.status = s.status
  errinfo : t.errinfo = s.errinfo
  seq : t.seq = s.seq
  memWf : Memory.wf s.mem = true → Memory.wf t.mem = true

theorem KeepsReport.machineInv {s t : State} (h : KeepsReport s t) (hs : MachineInv s) : MachineInv t where
  memWf := h.memWf hs.memWf
  statusLegal := by rw [h.status]; exact hs.statusLegal
  errinfoZero := by rw [h.status, h.errinfo]; exact hs.errinfoZero
  idle := by rw [h.seq]; exact hs.idle

theorem writeReg_keepsReport {r : Reg} (h : r ≠ .cmd) (v : BitVec 64) (s : State) : KeepsReport s (writeReg r v s) := by
  obtain ⟨hcmd, hstatus, herrinfo, hseq, hmem, -, -, -⟩ := writeReg_keeps h v s
  exact ⟨hcmd, hstatus, herrinfo, hseq, by rw [hmem]; exact id⟩

theorem reply_keepsReport (v : BitVec 64) (s : State) : KeepsReport s (reply v s) := ⟨rfl, rfl, rfl, rfl, id⟩

/-- The host's store of one byte (R40). -/
theorem memWrite_keepsReport (a : Addr) (b : Byte) (s : State) :
    KeepsReport s { s with mem := writeByte s.mem a.toNat b } :=
  ⟨rfl, rfl, rfl, rfl, fun hm => (fills_writeByte hm a.isLt b).wf⟩

/-- A register read that completes is a reply. -/
theorem registerRead_next {offset width : Nat} {s t : State} (h : registerRead offset width s = .next t) :
    ∃ v, t = reply v s := by
  unfold registerRead at h
  split at h
  · exact ⟨_, (Host.Outcome.next.inj h).symm⟩
  · cases h

/-- An access of memory by the host that completes has been made. -/
theorem hostMemory_next {a : Addr} {s t : State} {access : State → State} (h : hostMemory a s access = .next t) :
    t = access s := by
  rcases hostMemory_cases a s access with e | e | e
  · exact (Host.Outcome.next.inj (e.symm.trans h)).symm
  · cases e.symm.trans h
  · cases e.symm.trans h

/-- Everything a transaction that completes can have been: a write to `CMD`, the reset event, a reset that cuts a command
short, or one that leaves the report alone. -/
theorem hostTurn_next {tr : Transaction} {s t : State} (h : hostTurn exec tr s = .next t) :
    (∃ v, tr = .regWrite 0x00 32 v ∧ issue exec (v.setWidth 32) s = .next t) ∨
      (tr = .reset ∧ t = resetBlock s) ∨
      (∃ cw, tr = .resetDuring cw ∧ resetDuringCommand cw s = .next t) ∨
      KeepsReport s t := by
  cases tr with
  | regWrite offset width v =>
    have h' : registerWrite exec offset width v s = .next t := h
    rcases registerWrite_cases exec offset width v s with ⟨rfl, rfl, e⟩ | ⟨r, hr, e⟩ | e
    · exact .inl ⟨v, rfl, e.symm.trans h'⟩
    · obtain rfl := Host.Outcome.next.inj (e.symm.trans h')
      exact .inr (.inr (.inr (writeReg_keepsReport hr v s)))
    · cases e.symm.trans h'
  | regRead offset width =>
    obtain ⟨v, rfl⟩ := registerRead_next h
    exact .inr (.inr (.inr (reply_keepsReport v s)))
  | memWrite a b =>
    rw [hostTurn] at h
    obtain rfl := hostMemory_next h
    exact .inr (.inr (.inr (memWrite_keepsReport a b s)))
  | memRead a =>
    rw [hostTurn] at h
    obtain rfl := hostMemory_next h
    exact .inr (.inr (.inr (reply_keepsReport _ s)))
  | reset => exact .inr (.inl ⟨rfl, (Host.Outcome.next.inj h).symm⟩)
  | resetDuring cw => exact .inr (.inr (.inl ⟨cw, rfl, h⟩))

/-- With no transaction pending a step answers the same state (R186). -/
theorem step_idle {s : State} (h : s.host = []) : step s = .next s := by simp only [step, h]

/-- With a transaction pending a step is that transaction. -/
theorem step_hostTurn {s : State} {tr : Transaction} {rest : List Transaction} (h : s.host = tr :: rest) :
    step s = hostTurn exec tr { s with host := rest } := by simp only [step, h]

/-- Settles O55: a command, a fault and a reset establish the invariant anew from a memory in canonical form, and every
other transaction carries it over. -/
theorem everyStepKeepsTheInvariant : Obligations.EveryStepKeepsTheInvariant := by
  intro s t hs ht
  cases hh : s.host with
  | nil =>
    obtain rfl := Host.Outcome.next.inj ((step_idle hh).symm.trans ht)
    exact hs
  | cons tr rest =>
    have hs' : MachineInv { s with host := rest } := ⟨hs.memWf, hs.statusLegal, hs.errinfoZero, hs.idle⟩
    rw [step_hostTurn hh] at ht
    rcases hostTurn_next ht with ⟨v, -, hx⟩ | ⟨-, rfl⟩ | ⟨cw, -, hx⟩ | hk
    · exact machineInv_of_issue hs'.memWf hx
    · exact machineInv_resetBlock hs'.memWf
    · exact machineInv_of_resetDuring hs'.memWf hx
    · exact hk.machineInv hs'

/-- Settles O54: no memory is listed and the report is zero. -/
theorem invariantHoldsAtReset : Obligations.InvariantHoldsAtReset where
  memWf := wf_nil
  statusLegal := by decide
  errinfoZero := fun _ => rfl
  idle := rfl

/-- Settles O11: a transaction that is not one of the three excluded leaves the report alone. -/
theorem onlyCommandsAndResetChangeTheReport : Obligations.OnlyCommandsAndResetChangeTheReport := by
  refine ⟨fun s t tr rest hh ht hcmd hreset hduring => ?_, fun s => step_idle⟩
  rw [step_hostTurn hh] at ht
  rcases hostTurn_next ht with ⟨v, rfl, -⟩ | ⟨rfl, -⟩ | ⟨cw, rfl, -⟩ | hk
  · exact absurd rfl (hcmd v)
  · exact absurd rfl hreset
  · exact absurd rfl (hduring cw)
  · exact ⟨hk.cmd, hk.status, hk.errinfo⟩

/-! ### The report and the operands of a command (R11 to R16, R178) -/

/-- The codes of `STATUS` that a command's own checks can leave (R171): all but `ILLEGAL_CMD`. -/
theorem statusOfFault_mem {f : CmdFault} (h : f ≠ .illegalCmd) :
    statusOfFault f ∈ [0x00000022#32, 0x00000032#32, 0x00000042#32, 0x00000052#32] := by
  cases f with
  | illegalCmd => exact absurd rfl h
  | badLength => decide
  | misaligned => decide
  | range => decide
  | unmapped => decide

/-- Settles O30: a command raises one of the faults of its checks, or ends well. -/
theorem everyCommandWritesItsReport : Obligations.EveryCommandWritesItsReport := by
  intro i s t h
  rcases exec_next h with ⟨f, info, hc, rfl⟩ | ⟨-, -, rfl⟩
  · exact ⟨rfl, .inr (statusOfFault_mem (check_code hc).1)⟩
  · have he := (commandBody_keeps i s).2
    exact ⟨he.idle, .inl ⟨he.status, he.errinfo⟩⟩

/-- Settles O47: neither a fault nor a command's own effect touches an operand register. -/
theorem noCommandWritesItsOperands : Obligations.NoCommandWritesItsOperands := by
  intro i s t h
  rcases exec_next h with ⟨f, info, -, rfl⟩ | ⟨-, -, rfl⟩
  · exact raise_keeps f info s
  · exact (commandBody_keeps i s).1

/-! ### Every command ends (R25, R198) -/

/-- A command has at most three phases and 69 for each unit of `COUNT` (R25). -/
theorem phaseCount_le (i : Instr) (s : State) : phaseCount i s ≤ 3 + 69 * s.count.toNat := by
  unfold phaseCount
  split
  · omega
  · cases i with
    | normalize => simp only [chunkCount]; omega
    | transpose => simp only; omega
    | compress => simp only; omega

/-- From `CHECK` a command of any word reaches `IDLE` in `phaseCount` phases, whether it fails a check or not. -/
theorem idle_after_phaseCount {i : Instr} {s : State} (hp : s.seq.phase = .check) (hd : decode s.cmd = .ok i) :
    (ticks (phaseCount i s) s).seq.phase = .idle := by
  cases hc : check i s with
  | some e => rw [(busy_fault hp hd hc).reach]; rfl
  | none => rw [(busy_command hp hd hc).reach]; exact (commandBody_keeps i s).2.idle

/-- The phase `CHECK` of a word that is no command raises `ILLEGAL_CMD` (R172). -/
theorem tick_check_illegal {s : State} {e : DecodeError} (hp : s.seq.phase = .check) (hd : decode s.cmd = .error e) :
    tick s = raise .illegalCmd (s.cmd.setWidth 64) s := by
  simp only [tick, hp, tickCheck, hd]

/-- Settles O57: a word that is no command ends in `CHECK`, every other after the phases that were counted. -/
theorem everyCommandEnds : Obligations.EveryCommandEnds := by
  intro s hp
  cases hd : decode s.cmd with
  | error e =>
    refine ⟨1, by omega, ?_⟩
    rw [ticks_one, tick_check_illegal hp hd]
    rfl
  | ok i => exact ⟨phaseCount i s, phaseCount_le i s, idle_after_phaseCount hp hd⟩

/-! ### The register file (R31, R78) -/

/-- Offset and width of every register, in the order of R78's table. -/
def registerTable : List (Nat × Nat) := allRegs.map fun r => (regOffset r, regWidth r)

/-- The table written out (R78). -/
theorem registerTable_eq : registerTable = [(0x00, 32), (0x04, 32), (0x08, 32), (0x0C, 32), (0x10, 64), (0x18, 64),
    (0x20, 64), (0x28, 64), (0x30, 64), (0x38, 64), (0x40, 64), (0x48, 64), (0x50, 64), (0x58, 64), (0x60, 64), (0x68, 64),
    (0x70, 64), (0x78, 64)] := by decide

/-- An access of no register of the table names none. -/
theorem regAt_eq_none {offset width : Nat} (h : (offset, width) ∉ registerTable) : regAt offset width = none := by
  refine List.find?_eq_none.2 fun r hr hm => h ?_
  simp only [Bool.and_eq_true, decide_eq_true_eq] at hm
  obtain ⟨rfl, rfl⟩ := hm
  exact List.mem_map_of_mem hr

/-- A write to no register is not legal. -/
theorem writeLegal_of_regAt_none {offset width : Nat} (h : regAt offset width = none) (v : BitVec 64) :
    writeLegal offset width v = false := by
  simp [writeLegal, accessLegal, h]

/-- A write whose value is wider than the access is not legal. -/
theorem writeLegal_of_wide {width : Nat} {v : BitVec 64} (h : 2 ^ width ≤ v.toNat) (offset : Nat) :
    writeLegal offset width v = false := by
  simp [writeLegal, Nat.not_lt.2 h]

/-- Settles O10: the pairs of the statement are `registerTable` written out; an access of none of them names no register,
and a write that is too wide is not legal wherever it goes. -/
theorem otherRegisterAccessesAreRefused : Obligations.OtherRegisterAccessesAreRefused := by
  intro s rest offset width v
  refine ⟨fun h => ?_, fun h => step_regWrite_refused rfl (writeLegal_of_wide h offset)⟩
  rw [← registerTable_eq] at h
  have hn := regAt_eq_none h
  exact ⟨step_regRead_refused rfl hn, step_regWrite_refused rfl (writeLegal_of_regAt_none hn v)⟩

/-- The step of a write to a register that is not `CMD`, by the register. -/
theorem step_write_reg {r : Reg} (hc : r ≠ .cmd) (s : State) (rest : List Transaction) {v : BitVec 64}
    (hv : v.toNat < 2 ^ regWidth r) :
    step { s with host := .regWrite (regOffset r) (regWidth r) v :: rest } =
      .next (writeReg r v { s with host := rest }) :=
  step_regWrite rfl (regAt_offset r) hc hv

/-- The step of a register read, by the register. -/
theorem step_read_reg (r : Reg) (s : State) (rest : List Transaction) :
    step { s with host := .regRead (regOffset r) (regWidth r) :: rest } =
      .next (reply (readReg r s) { s with host := rest }) := by
  rw [step_regRead rfl (regAt_offset r)]
  cases r <;> rfl

/-- Replacing an element, element by element. -/
theorem octSet_eq_ofFn {α : Type} (v : Oct α) (k : Fin 8) (x : α) :
    v.set k x = Oct.ofFn fun j => if j = k then x else v.get j :=
  Oct.ext_get fun j => by rw [Oct.get_set, Oct.get_ofFn]

/-- Settles O7: each of the ten operand registers is written at its own offset. -/
theorem operandWritesStoreTheValue : Obligations.OperandWritesStoreTheValue := by
  intro s rest v
  refine ⟨step_write_reg (r := .base) (by decide) s rest v.isLt, step_write_reg (r := .count) (by decide) s rest v.isLt,
    fun k => ?_⟩
  rw [← octSet_eq_ofFn]
  exact step_write_reg (r := .sp k) (by simp) s rest v.isLt

/-- A 32-bit value fits a 32-bit register. -/
theorem toNat_zeroExtend_lt (x : BitVec 32) : (x.setWidth 64).toNat < 2 ^ 32 := by
  rw [BitVec.toNat_setWidth_of_le (by decide)]; exact x.isLt

/-- Settles O8: a write to any of these registers stores nothing. -/
theorem writesToReadOnlySlotsAreIgnored : Obligations.WritesToReadOnlySlotsAreIgnored := fun s rest v x =>
  ⟨step_write_reg (r := .status) (by decide) s rest (toNat_zeroExtend_lt x),
    step_write_reg (r := .errinfo) (by decide) s rest v.isLt,
    fun k => step_write_reg (r := .reserved k) (by simp) s rest v.isLt,
    fun k => step_write_reg (r := .upper k) (by simp) s rest (toNat_zeroExtend_lt x)⟩

/-- Settles O9: a read of each register is its value as a reply. -/
theorem registerReadsReturnTheValue : Obligations.RegisterReadsReturnTheValue := fun s rest =>
  ⟨step_read_reg .cmd s rest, step_read_reg .status s rest, step_read_reg .errinfo s rest, step_read_reg .base s rest,
    step_read_reg .count s rest, fun k => step_read_reg (.sp k) s rest, fun k => step_read_reg (.reserved k) s rest,
    fun k => step_read_reg (.upper k) s rest⟩

/-! ### Reset and the constant tables (R17, R18, R30) -/

/-- Settles O51: `State.reset` holds these values, and `kRows` is the table of R17. -/
theorem resetLeavesTheGivenValues : Obligations.ResetLeavesTheGivenValues :=
  ⟨rfl, rfl, rfl, rfl, by decide⟩

/-- The four bytes of a word, reversed, as one number (R102). -/
theorem bswap32_toNat (x : Word) : (bswap32 x).toNat =
    x.toNat / 16777216 % 256 + 256 * (x.toNat / 65536 % 256) + 65536 * (x.toNat / 256 % 256) +
      16777216 * (x.toNat % 256) := by
  rw [bswap32_eq_bytes, append_bytes_toNat]
  simp only [wordByte_toNat, Nat.reducePow, Nat.div_one]

/-- A mask over the eight bits from bit `i` on keeps those bits. -/
theorem nat_and_byteMask (n i : Nat) : n &&& 255 * 2 ^ i = n / 2 ^ i % 256 * 2 ^ i := by
  refine Nat.eq_of_testBit_eq fun b => ?_
  rw [show 256 = 2 ^ 8 from rfl, show 255 = 2 ^ 8 - 1 from rfl, Nat.testBit_and, Nat.testBit_mul_two_pow,
    Nat.testBit_mul_two_pow, Nat.testBit_mod_two_pow, Nat.testBit_div_two_pow, Nat.testBit_two_pow_sub_one]
  by_cases h : i ≤ b
  · simp [h, Bool.and_comm]
  · simp [h]

/-- The arithmetic form of the byte reversal (R102): each of the four terms is one byte at its new place, so the sum is
the reversed word. -/
theorem bswap32_eq_sum (x : Word) :
    bswap32 x = (x <<< 24) + ((x <<< 8) &&& 0x00FF0000#32) + ((x >>> 8) &&& 0x0000FF00#32) + (x >>> 24) := by
  have hx := x.isLt
  have byte0 : (x <<< 24).toNat = 16777216 * (x.toNat % 256) := by
    rw [BitVec.toNat_shiftLeft, Nat.shiftLeft_eq]; omega
  have byte1 : ((x <<< 8) &&& 0x00FF0000#32).toNat = 65536 * (x.toNat / 256 % 256) := by
    refine (nat_and_byteMask (x <<< 8).toNat 16).trans ?_
    rw [BitVec.toNat_shiftLeft, Nat.shiftLeft_eq]; omega
  have byte2 : ((x >>> 8) &&& 0x0000FF00#32).toNat = 256 * (x.toNat / 65536 % 256) := by
    refine (nat_and_byteMask (x >>> 8).toNat 8).trans ?_
    rw [BitVec.toNat_ushiftRight, Nat.shiftRight_eq_div_pow]; omega
  have byte3 : (x >>> 24).toNat = x.toNat / 16777216 % 256 := by
    rw [BitVec.toNat_ushiftRight, Nat.shiftRight_eq_div_pow]; omega
  apply BitVec.eq_of_toNat_eq
  rw [bswap32_toNat, BitVec.toNat_add, BitVec.toNat_add, BitVec.toNat_add, byte0, byte1, byte2, byte3]
  omega

/-- The byte reversal is its own inverse (R102). -/
theorem bswap32_bswap32 (x : Word) : bswap32 (bswap32 x) = x :=
  word_ext_bytes fun j hj => by
    rw [wordByte_bswap32 _ hj, wordByte_bswap32 _ (by omega), show 3 - (3 - j) = j by omega]

/-- `BSMASK` sends byte `j` of lane `k` to the mirrored byte of the same lane (R18, R103). -/
theorem bsMask_mirrors (k : Fin 8) (j : Fin 4) :
    8 * ((4 * k.val + j.val) / 8) + bsMask (4 * k.val + j.val) = 4 * k.val + (3 - j.val) := by
  revert k j; decide

/-- Byte `j` of lane `k` of the vector with the bytes `b 0 .. b 31`. -/
theorem wordByte_get_vecOfBytes (b : Nat → Byte) (k : Fin 8) {j : Nat} (hj : j < 4) :
    wordByte ((vecOfBytes b).get k) j = b (4 * k.val + j) := by
  rw [vecOfBytes, Oct.get_ofFn]
  exact wordByte_append_bytes (fun j => b (4 * k.val + j)) hj

/-- The shuffle with `BSMASK` is the byte reversal of every lane (R103). -/
theorem shuf_bsMask (V : Vec) : shuf V bsMask = bswapV V := by
  refine Oct.ext_get fun k => word_ext_bytes fun j hj => ?_
  have hm : 8 * ((4 * k.val + j) / 8) + bsMask (4 * k.val + j) = 4 * k.val + (3 - j) := bsMask_mirrors k ⟨j, hj⟩
  rw [shuf, wordByte_get_vecOfBytes _ _ hj, hm, vecByte_lane _ _ (by omega), get_bswapV, wordByte_bswap32 _ hj]

/-- Settles O15: the four bytes of a word change places in pairs, in the sum as in the shuffle. -/
theorem byteReversalAndTheShuffleMask : Obligations.ByteReversalAndTheShuffleMask :=
  ⟨fun x => ⟨bswap32_eq_sum x, bswap32_bswap32 x⟩, rfl, shuf_bsMask⟩

end Sys2Proof.Machine

/-! ## The family `20_memory.md`: bytes, words, vectors and matrices of memory, and where the commands access it -/

namespace Sys2Proof.Machine

/-! ### Little-endian integers in memory (R42 to R45) -/

/-- `n` bytes are below `256 ^ n`. -/
theorem memRead_lt (m : Memory) (a n : Nat) : memRead m a n < 256 ^ n := by
  induction n generalizing a with
  | zero => exact Nat.one_pos
  | succ n ih =>
    have h0 := (readByte m a).isLt
    have h1 := ih (a + 1)
    rw [memRead, pow_succ']
    omega

/-- Two adjoining reads are one. -/
theorem memRead_add (m : Memory) (a i n : Nat) :
    memRead m a (i + n) = memRead m a i + 256 ^ i * memRead m (a + i) n := by
  induction i generalizing a with
  | zero => simp [memRead]
  | succ i ih =>
    rw [Nat.succ_add, memRead, ih, memRead, pow_succ', Nat.add_right_comm a 1 i, Nat.add_assoc a i 1]
    ring

/-- `MemRead` as a sum: the last byte is the most significant (R42). -/
theorem memRead_eq_sum (m : Memory) (a n : Nat) :
    memRead m a n = ((List.range n).map fun i => (readByte m (a + i)).toNat * 256 ^ i).sum := by
  induction n with
  | zero => rfl
  | succ n ih =>
    have last : memRead m (a + n) 1 = (readByte m (a + n)).toNat := rfl
    rw [memRead_add, last, ih, List.range_succ, List.map_append, List.sum_append]
    simp [Nat.mul_comm]

/-- The digits `i .. i + n - 1` of a longer read are the `n` bytes from `a + i` on. -/
theorem memRead_digits (m : Memory) (a : Nat) {i n l : Nat} (h : i + n ≤ l) :
    memRead m a l / 256 ^ i % 256 ^ n = memRead m (a + i) n := by
  obtain ⟨r, rfl⟩ := Nat.exists_eq_add_of_le h
  rw [Nat.add_assoc, memRead_add, Nat.add_mul_div_left _ _ (by positivity), Nat.div_eq_of_lt (memRead_lt m a i),
    Nat.zero_add, memRead_add, Nat.add_mul_mod_self_left, Nat.mod_eq_of_lt (memRead_lt m _ n)]

/-- The word at an address, as a number (R42). -/
theorem readWord_toNat (m : Memory) (a : Nat) : (readWord m a).toNat = memRead m a 4 :=
  Nat.mod_eq_of_lt (memRead_lt m a 4)

/-- The weight of byte `i`, as a shift by `8i` bits. -/
theorem two_pow_eight_mul (i : Nat) : 2 ^ (8 * i) = 256 ^ i := pow_mul 2 8 i

/-- Settles O20: a read is the sum of its weighted bytes, and `fills_memWrite` says the rest. -/
theorem memoryIsLittleEndian : Obligations.MemoryIsLittleEndian := by
  refine ⟨memRead_eq_sum, fun m a n v hm ha => ?_⟩
  have hf := fills_memWrite hm ha v
  refine ⟨fun i hi => ?_, fun x => hf.outside⟩
  rw [hf.inside hi, Nat.shiftRight_eq_div_pow, two_pow_eight_mul]

/-- Settles O21: a lane is the four digits of the 32-byte integer at its place. -/
theorem vectorsAndMatricesInMemory : Obligations.VectorsAndMatricesInMemory := by
  intro m a r k
  refine ⟨get_readVec m a k, ?_, by rw [get_readMat, get_readVec]⟩
  have hw : 2 ^ (32 * k.val) = 256 ^ (4 * k.val) := by rw [← two_pow_eight_mul, ← Nat.mul_assoc]
  rw [get_readVec, readWord_toNat, hw]
  exact (memRead_digits m a (n := 4) (by omega)).symm

/-- Settles O22: the byte-reversed word is its bytes put together in ascending order. -/
theorem messageWordsAreBigEndian : Obligations.MessageWordsAreBigEndian := by
  intro m a
  rw [bswap32_readWord, append_bytes_toNat]
  omega

/-- Settles O23: writing a byte keeps the canonical form, on which a read depends. -/
theorem writesChangeOneByte : Obligations.WritesChangeOneByte := fun _ a b hm ha =>
  ⟨(fills_writeByte hm ha b).wf, fun x => readByte_writeByte hm a x b⟩

/-! ### The host's accesses of memory (R40, R51, R53) -/

/-- A device's address is present. -/
theorem isPresent_of_isDevice {map : List Region} {a : Nat} (h : isDevice map a = true) : isPresent map a = true := by
  simp only [isDevice, isPresent, List.any_eq_true, Bool.and_eq_true] at h ⊢
  obtain ⟨r, hr, -, hc⟩ := h
  exact ⟨r, hr, hc⟩

section HostMemory

variable {a : Addr} {s : State}

/-- Where there is ordinary memory the host's access is made. -/
theorem hostMemory_ordinary (hp : isPresent s.map a.toNat = true) (hd : isDevice s.map a.toNat = false)
    (access : State → State) : hostMemory a s access = .next (access s) := by
  simp [hostMemory, hp, hd]

/-- Where the map has no region there is no memory (R53). -/
theorem hostMemory_absent (hp : isPresent s.map a.toNat = false) (access : State → State) :
    hostMemory a s access = .fault (.hostNoMemory a) := by
  have hd : isDevice s.map a.toNat = false :=
    Bool.eq_false_iff.2 fun hd => by rw [isPresent_of_isDevice hd] at hp; cases hp
  simp [hostMemory, hp, hd]

/-- At a device's address the host's access is refused (R51). -/
theorem hostMemory_device (hd : isDevice s.map a.toNat = true) (access : State → State) :
    hostMemory a s access = .refused (.hostDeviceAccess a) := by
  simp [hostMemory, hd]

end HostMemory

/-- The host's store of a byte is an access of its memory (R40). -/
theorem step_memWrite (s : State) (rest : List Transaction) (a : Addr) (b : Byte) :
    step { s with host := .memWrite a b :: rest } =
      hostMemory a { s with host := rest } fun s => { s with mem := writeByte s.mem a.toNat b } := by
  simp only [step, hostTurn]

/-- The host's load of a byte is an access of its memory (R40). -/
theorem step_memRead (s : State) (rest : List Transaction) (a : Addr) :
    step { s with host := .memRead a :: rest } =
      hostMemory a { s with host := rest } fun s => reply ((readByte s.mem a.toNat).setWidth 64) s := by
  simp only [step, hostTurn]

/-- Settles O24: the map decides what becomes of the host's store and load. -/
theorem hostMemoryAccesses : Obligations.HostMemoryAccesses := by
  intro s rest a b
  rw [step_memWrite, step_memRead]
  have ordinary := hostMemory_ordinary (a := a) (s := { s with host := rest })
  have absent := hostMemory_absent (a := a) (s := { s with host := rest })
  have device := hostMemory_device (a := a) (s := { s with host := rest })
  exact ⟨fun hp hd => ⟨ordinary hp hd _, ordinary hp hd _⟩, fun hp => ⟨absent hp _, absent hp _⟩,
    fun hd => ⟨device hd _, device hd _⟩⟩

/-! ### Where a command may run and what it may write (R47, R50 to R52) -/

/-- Settles O32: a device's address in a range is what the refusal looks for. -/
theorem deviceFootprintIsRefused : Obligations.DeviceFootprintIsRefused := by
  intro i s hc hd
  rw [exec_eq, runChecked, hc]
  exact if_pos (any_touchesDevice.2 hd)

/-- Settles O46: a COMPRESS that is ready has its effect, whose frame does not ask for the ranges to lie apart. -/
theorem overlappingCompressCompletes : Obligations.OverlappingCompressCompletes := by
  intro s hn hr hm
  have hc : s.count ≠ 0 := fun h => hn (by rw [h]; rfl)
  obtain ⟨hk, he⟩ := commandBody_keeps .compress s
  obtain ⟨hw, hf⟩ := compressBody_mem_frame hm fun _ => hr.matrix.inside
  exact ⟨compressBody s, exec_compress_of_ready hc hr, he, hk, hw, fun x hx => hf x (.inr hx)⟩

/-- Settles O48: a fault leaves memory alone, and a command's own effect has its frame. -/
theorem commandsWriteInsideTheirFootprint : Obligations.CommandsWriteInsideTheirFootprint := by
  intro i s t hm h
  rcases exec_next h with ⟨f, info, -, rfl⟩ | ⟨hc, -, rfl⟩
  · exact ⟨hm, fun _ _ => rfl⟩
  · exact commandBody_mem_frame hm hc

/-! ### The accesses of a command (R46, R47, R50) -/

/-- An access is at a multiple of 32 and its 32 bytes lie in one of the ranges, a write's in one that is written. -/
def AccessInside (spans : List Span) (e : BusEvent) : Prop :=
  match e with
  | .read a => a % 32 = 0 ∧ ∃ sp ∈ spans, sp.start ≤ a ∧ a + 32 ≤ sp.start + sp.len
  | .write a => a % 32 = 0 ∧ ∃ sp ∈ spans, sp.writes = true ∧ sp.start ≤ a ∧ a + 32 ≤ sp.start + sp.len

section Accesses

variable {map : List Region} {spans : List Span} {sp : Span}

/-- The 32-byte pieces of an accepted range are aligned (R46). -/
theorem Span.Accepted.piece_aligned (h : sp.Accepted map) (j : Nat) : (sp.start + 32 * j) % 32 = 0 := by
  have ha : sp.start % 32 = 0 := h.aligned
  omega

/-- Reading a piece of an accepted range. -/
theorem accessInside_read (h : sp.Accepted map) (hm : sp ∈ spans) {j : Nat} (hj : 32 * (j + 1) ≤ sp.len) :
    AccessInside spans (.read (sp.start + 32 * j)) :=
  ⟨h.piece_aligned j, sp, hm, by omega, by omega⟩

/-- Writing a piece of an accepted range that is written. -/
theorem accessInside_write (h : sp.Accepted map) (hm : sp ∈ spans) (hw : sp.writes = true) {j : Nat}
    (hj : 32 * (j + 1) ≤ sp.len) : AccessInside spans (.write (sp.start + 32 * j)) :=
  ⟨h.piece_aligned j, sp, hm, hw, by omega, by omega⟩

end Accesses

/-- The accesses of a matrix's rows: reads, then writes (R133, R158). -/
theorem accessInside_matEvents {s : State} {spans : List Span} (h : (matrixSpan s).Accepted s.map)
    (hm : matrixSpan s ∈ spans) :
    ∀ e ∈ matEvents .read s.base.toNat ++ matEvents .write s.base.toNat, AccessInside spans e := by
  intro e he
  rcases List.mem_append.1 he with he | he <;> obtain ⟨r, -, rfl⟩ := List.mem_map.1 he
  · exact accessInside_read h hm (show 32 * (r.val + 1) ≤ 256 by omega)
  · exact accessInside_write h hm rfl (show 32 * (r.val + 1) ≤ 256 by omega)

/-- The accesses that the effect of a command makes, in their order (R125, R133, R158). -/
def commandEvents (i : Instr) (s : State) : List BusEvent :=
  match i with
  | .normalize => (List.range (chunkCount s)).flatMap fun c => [.read (chunkAddr s c), .write (chunkAddr s c)]
  | .transpose => matEvents .read s.base.toNat ++ matEvents .write s.base.toNat
  | .compress => (List.range s.count.toNat).flatMap fun blk =>
      blockEvents s.base.toNat fun k => (s.sp.get k).toNat + 64 * blk

theorem commandBody_events {i : Instr} {s : State} (h : check i s = none) :
    (commandBody i s).events = s.events ++ commandEvents i s := by
  cases i with
  | normalize => exact events_normalizeBody s
  | transpose => exact (transposeBody_events s).trans (List.append_assoc ..)
  | compress => exact events_compressBody fun hc k => ((accepted_compress h hc).2 k).inside

/-- A chunk is a piece of the buffer (R122). -/
theorem normalizeEvents_inside {s : State} (h : check .normalize s = none) :
    ∀ e ∈ commandEvents .normalize s, AccessInside (footprint .normalize s) e := by
  obtain ⟨hl, ha⟩ := accepted_normalize h
  have h8 := chunkCount_of_lengthLegal hl
  have hm := List.mem_singleton_self (Span.mk s.base.toNat (4 * s.count.toNat) true)
  intro e he
  obtain ⟨c, hc, he⟩ := List.mem_flatMap.1 he
  have hj : 32 * (c + 1) ≤ 4 * s.count.toNat := by have := List.mem_range.1 hc; omega
  rcases List.mem_pair.1 he with rfl | rfl
  · exact accessInside_read ha hm hj
  · exact accessInside_write ha hm rfl hj

/-- A block reads two pieces of every stream and the State matrix, and writes the State matrix (R144, R146, R150). -/
theorem compressEvents_inside {s : State} (h : check .compress s = none) :
    ∀ e ∈ commandEvents .compress s, AccessInside (footprint .compress s) e := by
  intro e he
  obtain ⟨blk, hblk, he⟩ := List.mem_flatMap.1 he
  have hb : blk < s.count.toNat := List.mem_range.1 hblk
  have hc : s.count ≠ 0 := fun hc => by rw [hc] at hb; exact Nat.not_lt_zero _ hb
  obtain ⟨hmat, hstr⟩ := accepted_compress h hc
  rw [blockEvents, List.append_assoc, List.mem_append] at he
  rcases he with he | he
  · obtain ⟨k, -, he⟩ := List.mem_flatMap.1 he
    have half (j : Nat) (hj : j < 2) :
        AccessInside (footprint .compress s) (.read ((s.sp.get k).toNat + 32 * (2 * blk + j))) :=
      accessInside_read (hstr k) ((mem_footprint_compress hc).2 (.inr ⟨k, rfl⟩))
        (show 32 * (2 * blk + j + 1) ≤ 64 * s.count.toNat by omega)
    rcases List.mem_pair.1 he with rfl | rfl
    · convert half 0 (by omega) using 2; omega
    · convert half 1 (by omega) using 2; omega
  · exact accessInside_matEvents hmat ((mem_footprint_compress hc).2 (.inl rfl)) e he

/-- Settles O49: a fault accesses nothing, and every access of a command's own effect is a piece of an accepted range. -/
theorem accessesStayInsideTheFootprint : Obligations.AccessesStayInsideTheFootprint := by
  intro i s t h
  rcases exec_next h with ⟨f, info, -, rfl⟩ | ⟨hc, -, rfl⟩
  · exact ⟨[], (List.append_nil _).symm, by simp⟩
  · have inside : ∀ e ∈ commandEvents i s, AccessInside (footprint i s) e := by
      cases i with
      | normalize => exact normalizeEvents_inside hc
      | transpose => exact accessInside_matEvents (accepted_transpose hc) (List.mem_singleton_self _)
      | compress => exact compressEvents_inside hc
    exact ⟨commandEvents i s, commandBody_events hc, inside⟩

end Sys2Proof.Machine

/-! ## The family `30_encoding.md`: the command word, the step that runs it, and the lines of a host program -/

namespace Sys2Proof

/-! ### The command word (R71 to R73) -/

/-- A command word is its two fields, `RSV` above `OPC` (R71). -/
theorem fieldRsv_append_fieldOpc (cw : Word) : fieldRsv cw ++ fieldOpc cw = cw :=
  (BitVec.extractLsb'_append_extractLsb'_eq_extractLsb' (by decide)).trans BitVec.extractLsb'_eq_self

/-- What a command's encoding holds in its fields, from the per-command statements (R71, R72). -/
theorem encodingFields (i : Instr) : Laws.EncodingFields.Statement i := by
  cases i with
  | normalize => exact Laws.EncodingFields.normalize
  | transpose => exact Laws.EncodingFields.transpose
  | compress => exact Laws.EncodingFields.compress

/-- An operation code names the one command whose code it is (R72). -/
theorem instrOfOpcode_eq_some {opc : Byte} {i : Instr} : instrOfOpcode opc = some i ↔ opc = opcode i := by
  constructor
  · intro h
    unfold instrOfOpcode at h
    split_ifs at h with h1 h2 h3 <;> cases h <;> assumption
  · rintro rfl
    obtain ⟨-, -, -, h⟩ := encodingFields i
    exact h

/-- A word decodes to a command when `RSV` is zero and `OPC` names the command (R73, R74). -/
theorem decode_eq_ok {cw : Word} {i : Instr} :
    decode cw = .ok i ↔ fieldRsv cw = 0 ∧ instrOfOpcode (fieldOpc cw) = some i := by
  unfold decode
  split_ifs with hr
  · cases instrOfOpcode (fieldOpc cw) <;> simp [hr]
  · exact ⟨nofun, fun h => absurd h.1 hr⟩

/-- A word is a command's encoding when its fields are the encoding's (R71). -/
theorem eq_encode_iff {cw : Word} {i : Instr} : cw = encode i ↔ fieldRsv cw = 0 ∧ fieldOpc cw = opcode i := by
  constructor
  · rintro rfl
    obtain ⟨-, hrsv, hopc, -⟩ := encodingFields i
    exact ⟨hrsv, hopc⟩
  · rintro ⟨hrsv, hopc⟩
    rw [← fieldRsv_append_fieldOpc cw, hrsv, hopc, encode]

/-- Settles O2: decoder and encoder ask the same of the two fields. -/
theorem decodeAndEncodeAgree : Obligations.DecodeAndEncodeAgree := fun cw i => by
  rw [decode_eq_ok, instrOfOpcode_eq_some, eq_encode_iff]

/-- Settles O1: the three words are the three encodings. -/
theorem tableWordsDecodeToTheirCommands : Obligations.TableWordsDecodeToTheirCommands :=
  ⟨(decodeAndEncodeAgree _ .normalize).2 rfl, (decodeAndEncodeAgree _ .transpose).2 rfl,
    (decodeAndEncodeAgree _ .compress).2 rfl, rfl, rfl, rfl⟩

end Sys2Proof

namespace Sys2Proof.Machine

/-- A word that decodes is run, after the start of the command (R73). -/
theorem issue_of_decode {run : Instr → State → Host.Outcome State Fault Refusal} {cw : Word} {i : Instr}
    (h : decode cw = .ok i) (s : State) : issue run cw s = run i (beginCommand cw s) := by
  simp only [issue, h]

/-- Settles O3: the step issues the word, and `beginCommand` is what it adds around `exec`. -/
theorem stepRunsTheDecodedCommand : Obligations.StepRunsTheDecodedCommand := fun _ _ _ _ h =>
  (step_cmd rfl).trans (issue_of_decode h _)

/-! ### The register map (R78) -/

/-- Settles O6: a register is named by its own offset and width, which are the table's. -/
theorem registerMapIsTheTable : Obligations.RegisterMapIsTheTable := by
  intro offset width r
  rw [regAt_eq_some]
  cases r <;> exact Iff.rfl

/-! ### The lines of a host program (R79, R80) -/

/-- The operands of `COMPRESS` in the order in which they are written (R80). -/
def compressOperands (b : Addr) (p : Oct Addr) (n : BitVec 64) : List (Reg × BitVec 64) :=
  (.base, b) :: (octIndices.map (fun k => (.sp k, p.get k)) ++ [(.count, n)])

/-- Writing them leaves them in the registers. -/
theorem foldl_writeReg_compressOperands (b : Addr) (p : Oct Addr) (n : BitVec 64) (s : State) :
    (compressOperands b p n).foldl (fun s e => writeReg e.1 e.2 s) s = { s with base := b, sp := p, count := n } := by
  rw [compressOperands, List.foldl_cons, List.foldl_append, foldl_writeReg_sp, foldl_set_octIndices]
  rfl

/-- None of them is `CMD`, and all have 64 bits (R78). -/
theorem compressOperands_writable (b : Addr) (p : Oct Addr) (n : BitVec 64) :
    ∀ e ∈ compressOperands b p n, e.1 ≠ .cmd ∧ regWidth e.1 = 64 := by
  simp only [compressOperands, List.forall_mem_cons, List.forall_mem_append, List.forall_mem_map]
  exact ⟨⟨nofun, rfl⟩, fun k _ => ⟨nofun, rfl⟩, ⟨nofun, rfl⟩, nofun⟩

/-- Settles O5: each expansion is the writes of its operands and then the bare command. -/
theorem pseudoInstructionsLoadTheirOperands : Obligations.PseudoInstructionsLoadTheirOperands := by
  refine ⟨fun s rest b n => ⟨rfl, ?_⟩, fun s rest b => ⟨rfl, ?_⟩, fun s rest b p n => ⟨rfl, ?_⟩⟩
  · exact runHost_asmWr (rest := asmCommand .normalize :: rest) [(.base, b), (.count, n)] (by simp)
      (by simp [regWidth]) rfl
  · exact runHost_asmWr (rest := asmCommand .transpose :: rest) [(.base, b)] (by simp) (by simp [regWidth]) rfl
  · have hw := compressOperands_writable b p n
    have run := runHost_asmWr (rest := asmCommand .compress :: rest) (compressOperands b p n) (fun e he => (hw e he).1)
      (fun e he => (hw e he).2) (s := { s with host := asmCompress b p n ++ rest }) rfl
    rw [foldl_writeReg_compressOperands] at run
    exact run

end Sys2Proof.Machine


/-! ## The family `40_datapath_primitives.md`: bits of the scalar operations, the self-inverse laws and the lanes -/

namespace Sys2Proof.Machine

/-! ### Rotate and shift (R92, R93) -/

/-- The two parts of a rotation have no bit in common, so their sum is the library's rotation. -/
theorem rotr_eq_rotateRight (x : Word) {n : Nat} (hn : n < 32) : rotr x n = x.rotateRight n := by
  have disjoint : x >>> n &&& x <<< (32 - n) = 0#32 := by
    refine BitVec.eq_of_getLsbD_eq fun b hb => ?_
    by_cases h : b < 32 - n
    · simp [h]
    · have top : x.getLsbD (n + b) = false := BitVec.getLsbD_of_ge x _ (by omega)
      simp [top]
  rw [BitVec.rotateRight_eq_rotateRightAux_of_lt hn]
  exact BitVec.add_eq_or_of_and_eq_zero _ _ disjoint

/-- Bit `b` of a rotation is bit `(b + n) mod 32` of the word (R92). -/
theorem getLsbD_rotr (x : Word) {n b : Nat} (hn : n < 32) (hb : b < 32) :
    (rotr x n).getLsbD b = x.getLsbD ((b + n) % 32) := by
  rw [rotr_eq_rotateRight x hn, BitVec.getLsbD_rotateRight, Nat.mod_eq_of_lt hn]
  by_cases h : b < 32 - n
  · have hi : (b + n) % 32 = n + b := by omega
    simp [h, hi]
  · have hi : (b + n) % 32 = b - (32 - n) := by omega
    simp [h, hb, hi]

theorem rotr_toNat (x : Word) (n : Nat) :
    (rotr x n).toNat = (x.toNat / 2 ^ n + x.toNat * 2 ^ (32 - n)) % 2 ^ 32 := by
  rw [rotr, BitVec.toNat_add, BitVec.toNat_ushiftRight, BitVec.toNat_shiftLeft, Nat.shiftRight_eq_div_pow,
    Nat.shiftLeft_eq, Nat.add_mod_mod]

theorem shr_toNat (x : Word) (n : Nat) : (shr x n).toNat = x.toNat / 2 ^ n := by
  rw [shr, BitVec.toNat_ushiftRight, Nat.shiftRight_eq_div_pow]

/-- A shift moves bit `b + n` to bit `b`, and zeros enter at the top (R93). -/
theorem getLsbD_shr (x : Word) (n b : Nat) :
    (shr x n).getLsbD b = (decide (b + n < 32) && x.getLsbD (b + n)) := by
  rw [shr, BitVec.getLsbD_ushiftRight, Nat.add_comm n b]
  by_cases h : b + n < 32
  · simp [h]
  · simp [h, BitVec.getLsbD_of_ge x (b + n) (by omega)]

/-- Settles O12: the shift discards the bits that the rotation adds back at the top. -/
theorem rotateAndShiftMoveBits : Obligations.RotateAndShiftMoveBits := fun x n _ hn =>
  ⟨rotr_toNat x n, fun _ hb => getLsbD_rotr x (by omega) hb, shr_toNat x n, fun b _ => getLsbD_shr x n b⟩

/-! ### The functions of a round, bit by bit (R94 to R99) -/

/-- Settles O14: the exclusive or is taken bit by bit, and each of its terms moves one bit to its place. -/
theorem sigmaFunctionsCombineThreeBits : Obligations.SigmaFunctionsCombineThreeBits := by
  intro x b hb
  have rot (n : Nat) (hn : n < 32) := getLsbD_rotr x hn hb
  simp (disch := decide) only [bigSigma0, bigSigma1, smallSigma0, smallSigma1, BitVec.getLsbD_xor, rot, getLsbD_shr,
    and_self]

/-- Bit `b` of `Ch` is chosen by `e`'s (R94). -/
theorem getLsbD_ch (e f g : Word) {b : Nat} (hb : b < 32) :
    (ch e f g).getLsbD b = if e.getLsbD b then f.getLsbD b else g.getLsbD b := by
  rw [ch, BitVec.getLsbD_xor, BitVec.getLsbD_and, BitVec.getLsbD_and, BitVec.getLsbD_not]
  cases e.getLsbD b <;> simp [hb]

/-- The exclusive or of the three pairwise products is the majority vote (R95). -/
theorem xor_pairs_iff_majority (p q r : Bool) : (p && q ^^ p && r ^^ q && r) = true ↔ 2 ≤ [p, q, r].count true := by
  revert p q r; decide

theorem getLsbD_maj (a b c : Word) (i : Nat) :
    (maj a b c).getLsbD i =
      (a.getLsbD i && b.getLsbD i ^^ a.getLsbD i && c.getLsbD i ^^ b.getLsbD i && c.getLsbD i) := by
  simp only [maj, BitVec.getLsbD_xor, BitVec.getLsbD_and]

/-- Settles O13: one bit of each operand decides a bit of the result. -/
theorem chChoosesAndMajVotes : Obligations.ChChoosesAndMajVotes := fun x y z b hb =>
  ⟨getLsbD_ch x y z hb, by rw [getLsbD_maj, xor_pairs_iff_majority]⟩

/-! ### Registers: the transpose network and the self-inverse laws (R105 to R107, R109) -/

/-- Settles O16: the three stages only move the 64 words, and each arrives where the transpose puts it. -/
theorem networkComputesTheTranspose : Obligations.NetworkComputesTheTranspose := fun _ => rfl

/-- The lane-wise byte reversal is its own inverse, because the reversal of a word is (R109). -/
theorem bswapV_bswapV (V : Vec) : bswapV (bswapV V) = V :=
  Oct.ext_get fun k => by rw [get_bswapV, get_bswapV, bswap32_bswap32]

/-- Settles O17: element by element for the matrix, lane by lane for the vector. -/
theorem transposeAndByteReversalAreSelfInverse : Obligations.TransposeAndByteReversalAreSelfInverse :=
  ⟨transpose8_transpose8, bswapV_bswapV⟩

/-! ### A round keeps lanes apart (R110) -/

/-- Two windows hold the same words in lane `k`. -/
def SameLane (k : Fin 8) (w w' : Bank) : Prop := ∀ j : Fin 16, (w.slot j).get k = (w'.slot j).get k

/-- A lane of an expanded slot is made of that lane of four slots (R148). -/
theorem SameLane.get_expandedSlot {k : Fin 8} {w w' : Bank} (h : SameLane k w w') (j : Fin 16) :
    (expandedSlot w j).get k = (expandedSlot w' j).get k := by
  simp only [expandedSlot, get_addV, get_lift1, h _]

/-- Replacing the same slot by vectors that agree in the lane. -/
theorem SameLane.setSlot {k : Fin 8} {w w' : Bank} (h : SameLane k w w') (j : Fin 16) {V V' : Vec}
    (hV : V.get k = V'.get k) : SameLane k (w.setSlot j V) (w'.setSlot j V') := by
  intro l
  rw [Bank.slot_setSlot, Bank.slot_setSlot]
  split
  · exact hV
  · exact h l

/-- Each of the sixteen updates keeps the lane the same (R148). -/
theorem SameLane.expandSchedule {k : Fin 8} {w w' : Bank} (h : SameLane k w w') :
    SameLane k (expandSchedule w) (expandSchedule w') :=
  List.foldl_rel h fun j _ _ _ hc => hc.setSlot j (hc.get_expandedSlot j)

/-- The window that a round reads, expanded or not (R147). -/
theorem SameLane.window_of_round {k : Fin 8} {x y : Scratch} (h : SameLane k x.w y.w) (i : Nat) :
    SameLane k (roundWindow i x) (roundWindow i y) := by
  unfold roundWindow
  split
  · exact h.expandSchedule
  · exact h

theorem laneWorking_eq_iff {k : Fin 8} {x y : Scratch} :
    laneWorking x k = laneWorking y k ↔ ∀ r : Fin 8, (x.working.get r).get k = (y.working.get r).get k := by
  simp only [Oct.ext_iff_get, laneWorking, Oct.get_ofFn]

/-- Settles O18: a lane of the new working registers is the scalar round of that lane and one word of the window's. -/
theorem roundsKeepLanesApart : Obligations.RoundsKeepLanesApart := by
  intro i x y k hr hw
  have window : SameLane k (roundWindow i x) (roundWindow i y) := SameLane.window_of_round hw i
  constructor
  · rw [← laneWorking_eq_iff, laneWorking_roundStep, laneWorking_roundStep, window _, laneWorking_eq_iff.2 hr]
  · rw [roundStep_w, roundStep_w]
    exact window

end Sys2Proof.Machine

/-! ## The family `41_normalize.md`: the checks of NORMALIZE, its effect on memory, and the order of its accesses -/

namespace Sys2Proof.Machine

/-! ### The checks (R121, R176, R178) -/

/-- A command that fails a check ends in exactly that fault's state (R178). -/
theorem exec_of_check_fault {i : Instr} {s : State} {f : CmdFault} {info : BitVec 64}
    (h : check i s = some (f, info)) : exec i s = .next (faultedState (statusOfFault f) info s) :=
  (exec_eq i s).trans (runChecked_fault h)

/-- The lowest address that a written range may not use is the one the checks find (R176). -/
theorem LowestIn.lowestUnmapped_eq {map : List Region} {a n x : Nat} (h : LowestIn (BlockedForWrite map) a n x) :
    lowestUnmapped map { start := a, len := n, writes := true } = some x := by
  have blocked (y : Nat) : isUnmapped map true y = true ↔ BlockedForWrite map y := by
    simp [isUnmapped_iff, BlockedForWrite]
  obtain ⟨⟨h1, h2, hx⟩, hmin⟩ := h
  refine lowestUnmapped_eq_some.2 ⟨⟨Span.holds_iff.2 ⟨h1, h2⟩, (blocked x).2 hx⟩, fun y hy hu => ?_⟩
  by_contra hlt
  exact hmin y (Span.holds_iff.1 hy).1 (by omega) ((blocked y).1 hu)

/-- A length is illegal where it is zero or not a multiple of 8 (R121, R173). -/
theorem lengthLegal_eq_false {s : State} :
    lengthLegal s = false ↔ s.count.toNat = 0 ∨ s.count.toNat % 8 ≠ 0 := by
  simp only [lengthLegal, Bool.and_eq_false_iff, decide_eq_false_iff_not, not_not, ne_eq]

/-- The first check of NORMALIZE: its length (R121). -/
theorem check_normalize_badLength {s : State} (h : lengthLegal s = false) :
    check .normalize s = some (.badLength, s.count) := if_pos ⟨rfl, h⟩

/-- The later checks of NORMALIZE are those of its one range (R121). -/
theorem check_normalize_of_lengthLegal {s : State} (h : lengthLegal s = true) : check .normalize s =
    checkSpans s.map [{ start := s.base.toNat, len := 4 * s.count.toNat, writes := true }] :=
  check_of_lengthLegal fun _ => h

/-- Settles O25: the length first, then the three classes of checks on the one range of the footprint. -/
theorem normalizeFaultTable : Obligations.NormalizeFaultTable := by
  intro s
  refine ⟨fun h => exec_of_check_fault (check_normalize_badLength (lengthLegal_eq_false.2 h)), fun h0 h8 => ?_⟩
  have hl : lengthLegal s = true := by simp [lengthLegal, h0, h8]
  have fault {f : CmdFault} {info : BitVec 64} (h : checkSpans s.map
      [{ start := s.base.toNat, len := 4 * s.count.toNat, writes := true }] = some (f, info)) :
      exec .normalize s = .next (faultedState (statusOfFault f) info s) :=
    exec_of_check_fault ((check_normalize_of_lengthLegal hl).trans h)
  have hb : BitVec.ofNat 64 s.base.toNat = s.base := by simp
  refine ⟨fun ha => ?_, fun ha => ⟨fun hr => ?_, fun hr x hx => ?_⟩⟩
  · have hc := fault (checkSpans_misaligned (pre := []) (post := []) nofun ha)
    rwa [hb] at hc
  · have hc := fault (checkSpans_range (pre := []) (post := []) (List.forall_mem_singleton.2 ha) nofun hr)
    rwa [hb] at hc
  · exact fault (checkSpans_unmapped (pre := []) (post := []) (List.forall_mem_singleton.2 ha)
      (List.forall_mem_singleton.2 hr) nofun hx.lowestUnmapped_eq)

/-! ### The effect on memory (R122 to R124) -/

section Effect

variable {s : State} (h : NormalizeReady s) (hm : Memory.wf s.mem = true)
include h hm

/-- The buffer after a NORMALIZE, and what is left alone around it (R123). -/
theorem NormalizeReady.fills : Fills s.mem (normalizeBody s).mem s.base.toNat (4 * s.count.toNat)
    (fun j => readByte s.mem (s.base.toNat + (4 * (j / 4) + (3 - j % 4)))) :=
  fills_normalizeBody h.lengthLegal hm h.buffer.inside

/-- Byte `j` of word `n` of the buffer holds what byte `3 - j` of that word held (R123). -/
theorem NormalizeReady.readByte_body {n j : Nat} (hn : n < s.count.toNat) (hj : j < 4) :
    readByte (normalizeBody s).mem (s.base.toNat + 4 * n + j) = readByte s.mem (s.base.toNat + 4 * n + (3 - j)) := by
  have hq : (4 * n + j) / 4 = n := by omega
  have hr : (4 * n + j) % 4 = j := by omega
  rw [Nat.add_assoc, (h.fills hm).inside (by omega), hq, hr, Nat.add_assoc]

/-- Word `n` of the buffer is the byte reversal of what it was (R123). -/
theorem NormalizeReady.readWord_body {n : Nat} (hn : n < s.count.toNat) :
    readWord (normalizeBody s).mem (s.base.toNat + 4 * n) = bswap32 (readWord s.mem (s.base.toNat + 4 * n)) :=
  readWord_eq_of_bytes fun j hj => by
    rw [h.readByte_body hm hn hj, wordByte_bswap32 _ hj, wordByte_readWord _ _ _ (by omega)]

end Effect

/-- Settles O33: the checks pass, and the effect reverses the bytes of every word of the buffer. -/
theorem normalizeReversesEveryWord : Obligations.NormalizeReversesEveryWord := by
  intro s h hm
  obtain ⟨hk, he⟩ := commandBody_keeps .normalize s
  refine ⟨normalizeBody s, exec_normalize_of_ready h, he, hk, fun n hn j hj => ?_, fun n hn => h.readWord_body hm hn,
    fun x hx => (h.fills hm).outside hx⟩
  rw [h.readByte_body hm hn hj, Nat.add_sub_assoc (by omega)]

/-- What two commands in a row leave alone. -/
theorem KeepsOperands.trans {s t u : State} (h : KeepsOperands s t) (h' : KeepsOperands t u) : KeepsOperands s u :=
  ⟨h'.cmd.trans h.cmd, h'.base.trans h.base, h'.count.trans h.count, h'.sp.trans h.sp, h'.map.trans h.map,
    h'.host.trans h.host, h'.replies.trans h.replies⟩

/-- The conditions of a NORMALIZE are about the operands and the map alone, so they hold again after a command. -/
theorem NormalizeReady.of_keepsOperands {s t : State} (h : NormalizeReady s) (hk : KeepsOperands s t) :
    NormalizeReady t :=
  ⟨hk.count ▸ h.positive, hk.count ▸ h.chunked, by rw [hk.map, hk.base, hk.count]; exact h.buffer⟩

/-- The second of two NORMALIZEs takes every byte of the buffer back to its place (R124). -/
theorem NormalizeReady.normalizeBody_twice_mem {s : State} (h : NormalizeReady s) (hm : Memory.wf s.mem = true) :
    (normalizeBody (normalizeBody s)).mem = s.mem := by
  have hk : KeepsOperands s (normalizeBody s) := (commandBody_keeps .normalize s).1
  have h' := h.of_keepsOperands hk
  have hf := h.fills hm
  have hf' := h'.fills hf.wf
  refine memory_ext hf'.wf hm fun x => ?_
  by_cases hx : s.base.toNat ≤ x ∧ x < s.base.toNat + 4 * s.count.toNat
  · obtain ⟨n, j, hj, rfl⟩ : ∃ n j, j < 4 ∧ x = s.base.toNat + 4 * n + j :=
      ⟨(x - s.base.toNat) / 4, (x - s.base.toNat) % 4, by omega, by omega⟩
    have hn : n < s.count.toNat := by omega
    have second := h'.readByte_body hf.wf (hk.count ▸ hn) hj
    rw [hk.base] at second
    rw [second, h.readByte_body hm hn (by omega), Nat.sub_sub_self (by omega)]
  · have second := hf'.outside (x := x) (by rw [hk.base, hk.count]; omega)
    rw [second, hf.outside (by omega)]

/-- Settles O34: the second command is ready because the first kept the operands, and it undoes the first. -/
theorem normalizeTwiceRestoresMemory : Obligations.NormalizeTwiceRestoresMemory := by
  intro s h hm
  have hk : KeepsOperands s (normalizeBody s) := (commandBody_keeps .normalize s).1
  obtain ⟨hk', he'⟩ := commandBody_keeps .normalize (normalizeBody s)
  exact ⟨normalizeBody s, normalizeBody (normalizeBody s), exec_normalize_of_ready h,
    exec_normalize_of_ready (h.of_keepsOperands hk), h.normalizeBody_twice_mem hm, he', hk.trans hk'⟩

/-! ### The order of the accesses (R125) -/

/-- Settles O35: a NORMALIZE that is ready has its effect, and the events are those of its chunks. -/
theorem normalizeAccessOrder : Obligations.NormalizeAccessOrder := fun s h =>
  ⟨normalizeBody s, exec_normalize_of_ready h, events_normalizeBody s⟩

end Sys2Proof.Machine

/-! ## The family `42_transpose.md`: the checks of TRANSPOSE, its effect on memory, and the order of its accesses -/

namespace Sys2Proof.Machine

/-! ### The checks (R131, R176, R178) -/

/-- The checks of TRANSPOSE are those of its one range, the matrix (R131). -/
theorem check_transpose (s : State) : check .transpose s = checkSpans s.map [matrixSpan s] :=
  check_of_lengthLegal nofun

/-- What `ERRINFO` records of the matrix's range is `BASE` (R131). -/
theorem ofNat_matrixSpan_start (s : State) : BitVec.ofNat 64 (matrixSpan s).start = s.base :=
  (BitVec.ofNat_toNat 64 s.base).trans s.base.setWidth_eq

/-- The first check of TRANSPOSE: its alignment (R131). -/
theorem check_transpose_misaligned {s : State} (ha : s.base.toNat % 32 ≠ 0) :
    check .transpose s = some (.misaligned, s.base) := by
  rw [check_transpose, ← ofNat_matrixSpan_start s]
  exact checkSpans_misaligned (pre := []) (post := []) nofun ha

/-- The second check of TRANSPOSE: the matrix ends inside the address space (R131). -/
theorem check_transpose_range {s : State} (ha : s.base.toNat % 32 = 0) (hr : 2 ^ 64 < s.base.toNat + 256) :
    check .transpose s = some (.range, s.base) := by
  rw [check_transpose, ← ofNat_matrixSpan_start s]
  exact checkSpans_range (pre := []) (post := []) (List.forall_mem_singleton.2 ha) nofun hr

/-- The third check of TRANSPOSE: the block may read and write every address of the matrix (R131). -/
theorem check_transpose_unmapped {s : State} {x : Nat} (ha : s.base.toNat % 32 = 0) (hr : s.base.toNat + 256 ≤ 2 ^ 64)
    (hx : LowestIn (BlockedForWrite s.map) s.base.toNat 256 x) :
    check .transpose s = some (.unmapped, BitVec.ofNat 64 x) := by
  rw [check_transpose]
  exact checkSpans_unmapped (pre := []) (post := []) (List.forall_mem_singleton.2 ha)
    (List.forall_mem_singleton.2 hr) nofun hx.lowestUnmapped_eq

/-- Settles O26: each clause is one of the three checks, and a command that fails a check ends in that fault's state. -/
theorem transposeFaultTable : Obligations.TransposeFaultTable := fun _ =>
  ⟨fun ha => exec_of_check_fault (check_transpose_misaligned ha),
    fun ha => ⟨fun hr => exec_of_check_fault (check_transpose_range ha hr),
      fun hr _ hx => exec_of_check_fault (check_transpose_unmapped ha hr hx)⟩⟩

/-! ### The effect on memory (R132, R134) -/

/-- The conditions of a TRANSPOSE are about `BASE` and the map alone, so they hold again after a command. -/
theorem TransposeReady.of_keepsOperands {s t : State} (h : TransposeReady s) (hk : KeepsOperands s t) :
    TransposeReady t := by
  rw [TransposeReady, hk.map, hk.base]; exact h

section Effect

variable {s : State} (h : TransposeReady s) (hm : Memory.wf s.mem = true)
include h hm

/-- The matrix at `BASE` after a TRANSPOSE is the transpose of what it was (R132). -/
theorem TransposeReady.readMat_body :
    readMat (transposeBody s).mem s.base.toNat = transpose8 (readMat s.mem s.base.toNat) := by
  rw [transposeBody_mem, readMat_writeMat hm h.inside]

/-- The word at row `i`, lane `j` is the one that was at row `j`, lane `i` (R132). -/
theorem TransposeReady.readWord_body (i j : Fin 8) :
    readWord (transposeBody s).mem (s.base.toNat + 32 * i.val + 4 * j.val) =
      readWord s.mem (s.base.toNat + 32 * j.val + 4 * i.val) := by
  have swap : ((readMat (transposeBody s).mem s.base.toNat).get i).get j =
      ((readMat s.mem s.base.toNat).get j).get i := by rw [h.readMat_body hm, get_transpose8]
  simpa only [get_readMat, get_readVec] using swap

/-- A second TRANSPOSE brings the matrix back, and neither writes outside it (R134). -/
theorem TransposeReady.transposeBody_twice_mem : (transposeBody (transposeBody s)).mem = s.mem := by
  have hk : KeepsOperands s (transposeBody s) := (commandBody_keeps .transpose s).1
  have h' := h.of_keepsOperands hk
  have hf := fills_transposeBody hm h.inside
  have hf' := fills_transposeBody hf.wf h'.inside
  have second := h'.readMat_body hf.wf
  rw [hk.base] at hf' second
  have matrix : readMat (transposeBody (transposeBody s)).mem s.base.toNat = readMat s.mem s.base.toNat := by
    rw [second, h.readMat_body hm, transpose8_transpose8]
  refine memory_ext hf'.wf hm fun x => ?_
  by_cases hx : s.base.toNat ≤ x ∧ x < s.base.toNat + 256
  · exact readByte_eq_of_readMat matrix hx.1 hx.2
  · rw [hf'.outside (by omega), hf.outside (by omega)]

end Effect

/-- Settles O36: the checks pass, and the effect replaces the matrix by its transpose. -/
theorem transposeSwapsRowsAndLanes : Obligations.TransposeSwapsRowsAndLanes := by
  intro s h hm
  obtain ⟨hk, he⟩ := commandBody_keeps .transpose s
  exact ⟨transposeBody s, exec_transpose_of_ready h, he, hk, fun i hi j hj => h.readWord_body hm ⟨i, hi⟩ ⟨j, hj⟩,
    fun x hx => (fills_transposeBody hm h.inside).outside hx⟩

/-- Settles O37: the second command is ready because the first kept the operands, and it undoes the first. -/
theorem transposeTwiceRestoresMemory : Obligations.TransposeTwiceRestoresMemory := by
  intro s h hm
  have hk : KeepsOperands s (transposeBody s) := (commandBody_keeps .transpose s).1
  obtain ⟨hk', he'⟩ := commandBody_keeps .transpose (transposeBody s)
  exact ⟨transposeBody s, transposeBody (transposeBody s), exec_transpose_of_ready h,
    exec_transpose_of_ready (h.of_keepsOperands hk), h.transposeBody_twice_mem hm, he', hk.trans hk'⟩

/-! ### The order of the accesses (R133) -/

/-- The rows of a matrix are accessed in ascending order (R133). -/
theorem matEvents_eq_map_range (kind : Nat → BusEvent) (a : Nat) :
    matEvents kind a = (List.range 8).map fun r => kind (a + 32 * r) := rfl

/-- Settles O38: a TRANSPOSE that is ready has its effect, and the events are its eight reads and its eight writes. -/
theorem transposeAccessOrder : Obligations.TransposeAccessOrder := fun s h =>
  ⟨transposeBody s, exec_transpose_of_ready h, by
    rw [transposeBody_events, matEvents_eq_map_range, matEvents_eq_map_range]⟩

end Sys2Proof.Machine

/-! ## The family `43_compress.md`: the rounds and the schedule, the checks of COMPRESS, its effect and its accesses -/

namespace Sys2Proof.Machine

/-! ### The round body (R149) -/

theorem get_roundT1 (i : Nat) (x : Scratch) (k : Fin 8) : (roundT1 i x).get k =
    bigSigma1 (x.e.get k) + ch (x.e.get k) (x.f.get k) (x.g.get k) + x.h.get k + roundConstant i +
      (x.w.slot (Fin.ofNat 16 i)).get k := by
  simp only [roundT1, get_addV, get_lift1, get_lift3, get_bcast]

theorem get_roundT2 (x : Scratch) (k : Fin 8) : (roundT2 x).get k =
    bigSigma0 (x.a.get k) + maj (x.a.get k) (x.b.get k) (x.c.get k) := by
  simp only [roundT2, get_addV, get_lift1, get_lift3]

/-- Settles O42: the two sums, lane by lane, and the assignments that add them. -/
theorem roundBodyIsTheSha256Round : Obligations.RoundBodyIsTheSha256Round := by
  intro i x k _
  rw [← get_roundT1, ← get_roundT2]
  exact ⟨rfl, rfl, get_addV _ _ k, rfl, rfl, rfl, get_addV _ _ k, rfl, rfl, rfl, rfl⟩

/-! ### The schedule expansion, slot by slot (R148) -/

/-- The window after the slots `0 .. n - 1` have been updated. -/
def expandSlots (w : Bank) : Nat → Bank
  | 0 => w
  | n + 1 => (expandSlots w n).setSlot (Fin.ofNat 16 n) (expandedSlot (expandSlots w n) (Fin.ofNat 16 n))

/-- The expansion is all sixteen updates. -/
theorem expandSchedule_eq_expandSlots (w : Bank) : expandSchedule w = expandSlots w 16 := rfl

/-- An update leaves every other slot alone. -/
theorem slot_expandSlots_succ_of_ne (w : Bank) {n : Nat} {j : Fin 16} (hn : n < 16) (hj : j.val ≠ n) :
    (expandSlots w (n + 1)).slot j = (expandSlots w n).slot j := by
  rw [expandSlots, Bank.slot_setSlot, if_neg]
  rintro rfl
  exact hj (Nat.mod_eq_of_lt hn)

/-- A slot is the old one until its turn. -/
theorem slot_expandSlots_of_le (w : Bank) {n : Nat} {j : Fin 16} (h : n ≤ j.val) :
    (expandSlots w n).slot j = w.slot j := by
  induction n with
  | zero => rfl
  | succ n ih => rw [slot_expandSlots_succ_of_ne w (by omega) (by omega), ih (by omega)]

/-- From its turn on a slot is the one formed from the window as it then stood. -/
theorem slot_expandSlots_of_lt (w : Bank) {n : Nat} {j : Fin 16} (h : j.val < n) (hn : n ≤ 16) :
    (expandSlots w n).slot j = expandedSlot (expandSlots w j.val) j := by
  induction n with
  | zero => omega
  | succ n ih =>
    by_cases hj : j.val = n
    · have hv : Fin.ofNat 16 n = j := Fin.ext (by rw [← hj]; exact Nat.mod_eq_of_lt j.isLt)
      rw [expandSlots, hv, Bank.slot_setSlot, if_pos rfl, hj]
    · rw [slot_expandSlots_succ_of_ne w (by omega) hj, ih (by omega) (by omega)]

/-- The new slot is formed from the window at its turn. -/
theorem slot_expandSchedule (w : Bank) (j : Fin 16) :
    (expandSchedule w).slot j = expandedSlot (expandSlots w j.val) j := by
  rw [expandSchedule_eq_expandSlots, slot_expandSlots_of_lt w j.isLt le_rfl]

/-- At the turn of slot `j` the slot `d` places on is old, unless the index has wrapped round. -/
theorem slot_expandSlots_add (w : Bank) (j : Fin 16) {d : Nat} (hd : d < 16) :
    (expandSlots w j.val).slot (Fin.ofNat 16 (j.val + d)) =
      if j.val + d < 16 then w.slot (Fin.ofNat 16 (j.val + d))
      else (expandSchedule w).slot (Fin.ofNat 16 (j.val + d)) := by
  have hv : (Fin.ofNat 16 (j.val + d)).val = (j.val + d) % 16 := rfl
  split
  · exact slot_expandSlots_of_le w (by omega)
  · rw [slot_expandSchedule, slot_expandSlots_of_lt w (by omega) (by omega)]

/-- Settles O19: each of the four slots that an update reads is old or new as its index tells. -/
theorem scheduleExpandsInPlace : Obligations.ScheduleExpandsInPlace := by
  intro w k j now
  have hnow (d : Nat) (hd : d < 16) : now d = ((expandSlots w j.val).slot (Fin.ofNat 16 (j.val + d))).get k := by
    rw [slot_expandSlots_add w j hd, apply_ite (Oct.get · k)]
  have hj : Fin.ofNat 16 (j.val + 0) = j := Fin.ext (Nat.mod_eq_of_lt j.isLt)
  rw [slot_expandSchedule, hnow 0 (by decide), hnow 1 (by decide), hnow 9 (by decide), hnow 14 (by decide), hj]
  simp only [expandedSlot, get_addV, get_lift1]

/-! ### The window over the 64 rounds (R154) -/

/-- A run of rounds is `scratchRounds` from its first state. -/
theorem eq_scratchRounds {x : Nat → Scratch} {n : Nat} (hx : ∀ i < n, x (i + 1) = roundStep i (x i)) :
    ∀ i ≤ n, x i = scratchRounds i (x 0) := by
  intro i hi
  induction i with
  | zero => rfl
  | succ i ih => rw [hx i hi, ih (by omega), scratchRounds]

/-- Settles O41: the list of the schedule obeys the recurrence, and the window that a round leaves is the one its body
read. -/
theorem windowHoldsTheSchedule : Obligations.WindowHoldsTheSchedule := by
  refine ⟨fun B t => ⟨scheduleWord_of_lt, scheduleWord_of_ge⟩, fun x B hw hx i hi k => ?_⟩
  rw [hx i hi, eq_scratchRounds hx i (by omega), roundStep_w]
  exact slot_roundWindow (hw k) hi

/-! ### The checks (R142, R174 to R178) -/

section Lowest

variable {map : List Region} {w : Bool} {p : Nat → Prop} (hp : ∀ y, isUnmapped map w y = true ↔ p y) {a n : Nat}
include hp

/-- The lowest address of a range that the block may not use is the one the checks find (R176). -/
theorem lowestUnmapped_of_lowestIn {x : Nat} (h : LowestIn p a n x) :
    lowestUnmapped map { start := a, len := n, writes := w } = some x := by
  obtain ⟨⟨h1, h2, hx⟩, hmin⟩ := h
  refine lowestUnmapped_eq_some.2 ⟨⟨Span.holds_iff.2 ⟨h1, h2⟩, (hp x).2 hx⟩, fun y hy hu => ?_⟩
  by_contra hlt
  exact hmin y (Span.holds_iff.1 hy).1 (by omega) ((hp y).1 hu)

/-- In a range that the block may use throughout the checks find none (R176). -/
theorem lowestUnmapped_of_forall_not (h : ∀ x, a ≤ x → x < a + n → ¬ p x) :
    lowestUnmapped map { start := a, len := n, writes := w } = none :=
  lowestUnmapped_eq_none.2 fun x hx => Bool.eq_false_iff.2 fun hu =>
    h x (Span.holds_iff.1 hx).1 (Span.holds_iff.1 hx).2 ((hp x).1 hu)

end Lowest

theorem isUnmapped_write_iff {map : List Region} (y : Nat) : isUnmapped map true y = true ↔ BlockedForWrite map y := by
  simp [isUnmapped_iff, BlockedForWrite]

theorem isUnmapped_read_iff {map : List Region} (y : Nat) : isUnmapped map false y = true ↔ BlockedForRead map y := by
  simp [isUnmapped_iff, BlockedForRead]

/-- What `ERRINFO` records of a stream's range is `SP[k]` (R142). -/
theorem ofNat_streamSpan_start (s : State) (k : Fin 8) : BitVec.ofNat 64 (streamSpan s k).start = s.sp.get k :=
  (BitVec.ofNat_toNat 64 (s.sp.get k)).trans (s.sp.get k).setWidth_eq

/-- The checks of COMPRESS are those of its ranges (R142). -/
theorem check_compress (s : State) : check .compress s = checkSpans s.map (footprint .compress s) :=
  check_of_lengthLegal nofun

section Checks

variable {s : State} (h0 : s.count ≠ 0)
include h0

/-- The ranges in the order of the checks: the State range first (R177). -/
theorem footprint_compress : footprint .compress s = matrixSpan s :: octIndices.map (streamSpan s) := if_neg h0

/-- The State range and the streams before stream `k` come before it (R177). -/
theorem footprint_compress_split (k : Fin 8) : ∃ pre post, footprint .compress s = pre ++ streamSpan s k :: post ∧
    ∀ sp ∈ pre, sp = matrixSpan s ∨ ∃ j < k, sp = streamSpan s j := by
  obtain ⟨pre, post, e, hpre⟩ := split_octIndices (streamSpan s) k
  refine ⟨matrixSpan s :: pre, post, by rw [footprint_compress h0, e]; rfl, fun sp hm => ?_⟩
  exact (List.mem_cons.1 hm).imp_right (hpre sp)

theorem forall_footprint_compress {P : Span → Prop} :
    (∀ sp ∈ footprint .compress s, P sp) ↔ P (matrixSpan s) ∧ ∀ k, P (streamSpan s k) := by
  simp only [mem_footprint_compress h0, or_imp, forall_and, forall_eq, forall_exists_index, forall_comm (α := Span)]

theorem footprint_compress_aligned (hb : s.base.toNat % 32 = 0) (hs : ∀ k, (s.sp.get k).toNat % 32 = 0) :
    ∀ q ∈ footprint .compress s, q.start % Config.alignment = 0 :=
  (forall_footprint_compress h0).2 ⟨hb, hs⟩

theorem footprint_compress_inside (hb : s.base.toNat + 256 ≤ 2 ^ 64)
    (hs : ∀ k, (s.sp.get k).toNat + 64 * s.count.toNat ≤ 2 ^ 64) :
    ∀ q ∈ footprint .compress s, q.start + q.len ≤ Config.addressSpace :=
  (forall_footprint_compress h0).2 ⟨hb, hs⟩

/-- The first check of COMPRESS: the alignment of `BASE` (R142). -/
theorem check_compress_base_misaligned (ha : s.base.toNat % 32 ≠ 0) :
    check .compress s = some (.misaligned, s.base) := by
  rw [check_compress, footprint_compress h0, ← ofNat_matrixSpan_start s]
  exact checkSpans_misaligned (pre := []) nofun ha

/-- The second: the alignment of the stream pointers, lowest first (R142). -/
theorem check_compress_stream_misaligned {k : Fin 8} (hb : s.base.toNat % 32 = 0) (hk : (s.sp.get k).toNat % 32 ≠ 0)
    (hpre : ∀ j < k, (s.sp.get j).toNat % 32 = 0) : check .compress s = some (.misaligned, s.sp.get k) := by
  obtain ⟨pre, post, e, he⟩ := footprint_compress_split h0 k
  rw [check_compress, e, ← ofNat_streamSpan_start s]
  refine checkSpans_misaligned (fun q hq => ?_) hk
  rcases he q hq with rfl | ⟨j, hj, rfl⟩
  · exact hb
  · exact hpre j hj

section Aligned

variable (hb : s.base.toNat % 32 = 0) (hs : ∀ k, (s.sp.get k).toNat % 32 = 0)
include hb hs

/-- The third check of COMPRESS: the State range ends inside the address space (R142). -/
theorem check_compress_base_range (hr : 2 ^ 64 < s.base.toNat + 256) :
    check .compress s = some (.range, s.base) := by
  have ha := footprint_compress_aligned h0 hb hs
  rw [footprint_compress h0] at ha
  rw [check_compress, footprint_compress h0, ← ofNat_matrixSpan_start s]
  exact checkSpans_range (pre := []) ha nofun hr

/-- The fourth: so do the stream ranges, lowest first (R142). -/
theorem check_compress_stream_range {k : Fin 8} (hbr : s.base.toNat + 256 ≤ 2 ^ 64)
    (hk : 2 ^ 64 < (s.sp.get k).toNat + 64 * s.count.toNat)
    (hpre : ∀ j < k, (s.sp.get j).toNat + 64 * s.count.toNat ≤ 2 ^ 64) :
    check .compress s = some (.range, s.sp.get k) := by
  have ha := footprint_compress_aligned h0 hb hs
  obtain ⟨pre, post, e, he⟩ := footprint_compress_split h0 k
  rw [e] at ha
  rw [check_compress, e, ← ofNat_streamSpan_start s]
  refine checkSpans_range ha (fun q hq => ?_) hk
  rcases he q hq with rfl | ⟨j, hj, rfl⟩
  · exact hbr
  · exact hpre j hj

variable (hbr : s.base.toNat + 256 ≤ 2 ^ 64) (hsr : ∀ k, (s.sp.get k).toNat + 64 * s.count.toNat ≤ 2 ^ 64)
include hbr hsr

/-- The fifth check of COMPRESS: the block may read and write every address of the State range (R142). -/
theorem check_compress_base_unmapped {x : Nat} (hx : LowestIn (BlockedForWrite s.map) s.base.toNat 256 x) :
    check .compress s = some (.unmapped, BitVec.ofNat 64 x) := by
  have ha := footprint_compress_aligned h0 hb hs
  have hi := footprint_compress_inside h0 hbr hsr
  rw [footprint_compress h0] at ha hi
  rw [check_compress, footprint_compress h0]
  exact checkSpans_unmapped (pre := []) ha hi nofun hx.lowestUnmapped_eq

/-- The sixth: it may read every address of the stream ranges, lowest stream first (R142). -/
theorem check_compress_stream_unmapped {k : Fin 8} {x : Nat}
    (hfree : ∀ y, s.base.toNat ≤ y → y < s.base.toNat + 256 → ¬ BlockedForWrite s.map y)
    (hpre : ∀ j < k, ∀ y, (s.sp.get j).toNat ≤ y → y < (s.sp.get j).toNat + 64 * s.count.toNat →
      ¬ BlockedForRead s.map y)
    (hx : LowestIn (BlockedForRead s.map) (s.sp.get k).toNat (64 * s.count.toNat) x) :
    check .compress s = some (.unmapped, BitVec.ofNat 64 x) := by
  have ha := footprint_compress_aligned h0 hb hs
  have hi := footprint_compress_inside h0 hbr hsr
  obtain ⟨pre, post, e, he⟩ := footprint_compress_split h0 k
  rw [e] at ha hi
  rw [check_compress, e]
  refine checkSpans_unmapped ha hi (fun q hq => ?_) (lowestUnmapped_of_lowestIn isUnmapped_read_iff hx)
  rcases he q hq with rfl | ⟨j, hj, rfl⟩
  · exact lowestUnmapped_of_forall_not isUnmapped_write_iff hfree
  · exact lowestUnmapped_of_forall_not isUnmapped_read_iff (hpre j hj)

end Aligned

end Checks

theorem count_ne_zero {s : State} (h : s.count.toNat ≠ 0) : s.count ≠ 0 := fun h0 => h (by rw [h0]; rfl)

/-- Settles O27: each clause is one of the six checks, and a command that fails a check ends in that fault's state. -/
theorem compressFaultTable : Obligations.CompressFaultTable := by
  intro s hn misaligned tooLong blocked
  have h0 := count_ne_zero hn
  refine ⟨fun ha => exec_of_check_fault (check_compress_base_misaligned h0 ha), fun hb => ⟨fun k hk hpre => ?_,
    fun hs => ?_⟩⟩
  · exact exec_of_check_fault (check_compress_stream_misaligned h0 hb hk fun j hj => not_not.1 (hpre j hj))
  replace hs : ∀ k, (s.sp.get k).toNat % 32 = 0 := fun k => not_not.1 (hs k)
  refine ⟨fun hr => exec_of_check_fault (check_compress_base_range h0 hb hs hr), fun hbr => ⟨fun k hk hpre => ?_,
    fun hsr => ?_⟩⟩
  · exact exec_of_check_fault (check_compress_stream_range h0 hb hs hbr hk fun j hj => Nat.not_lt.1 (hpre j hj))
  replace hsr : ∀ k, (s.sp.get k).toNat + 64 * s.count.toNat ≤ 2 ^ 64 := fun k => Nat.not_lt.1 (hsr k)
  refine ⟨fun x hx => exec_of_check_fault (check_compress_base_unmapped h0 hb hs hbr hsr hx),
    fun hfree k x hpre hx => ?_⟩
  exact exec_of_check_fault (check_compress_stream_unmapped h0 hb hs hbr hsr hfree
    (fun j hj y h1 h2 hy => hpre j hj ⟨y, h1, h2, hy⟩) hx)

/-- Settles O31: a fault and the effect are next states, and the refusal comes with a device's address. -/
theorem commandsAlwaysAnswer : Obligations.CommandsAlwaysAnswer := by
  intro i s
  rw [exec_eq]
  rcases runChecked_cases i (commandBody i) s with ⟨f, info, -, e⟩ | ⟨hc, hd, e⟩ | ⟨-, -, e⟩
  · exact .inl ⟨_, e⟩
  · exact .inr ⟨e, hc, any_touchesDevice.1 hd⟩
  · exact .inl ⟨_, e⟩

/-! ### The effect on memory (R141, R153, R155) -/

/-- Settles O39: no range is checked, and the command ends at once. -/
theorem compressOfZeroBlocksDoesNothing : Obligations.CompressOfZeroBlocksDoesNothing := fun s h =>
  ⟨finish s, exec_compress_zero h, ⟨rfl, rfl, rfl⟩, ⟨rfl, rfl, rfl, rfl, rfl, rfl, rfl⟩, rfl, rfl⟩

/-- A COMPRESS that is ready keeps the canonical form and writes the State matrix alone (R47). -/
theorem CompressReady.mem_frame {s : State} (h : CompressReady s) (hm : Memory.wf s.mem = true) :
    Memory.wf (compressBody s).mem = true ∧ MemSameOutside s (compressBody s) s.base.toNat 256 := by
  obtain ⟨hw, hf⟩ := compressBody_mem_frame hm fun _ => h.matrix.inside
  exact ⟨hw, fun x hx => hf x (.inr hx)⟩

/-- Settles O40: the checks pass, and the blocks chain the scalar function in every lane. -/
theorem compressIsScalarSha256PerLane : Obligations.CompressIsScalarSha256PerLane := by
  intro s hn hr ha hm
  have h0 := count_ne_zero hn
  obtain ⟨hk, he⟩ := commandBody_keeps .compress s
  exact ⟨compressBody s, exec_compress_of_ready h0 hr, he, hk, compressBody_column h0 hr ha hm, (hr.mem_frame hm).2⟩

/-- Settles O43: both results in column `j` are the same scalar function of the same column and bytes. -/
theorem lanesAreIndependent : Obligations.LanesAreIndependent := by
  intro s s' j hn hcount hr ha hm hr' ha' hm' hcol hbytes
  have h0 := count_ne_zero hn
  have h0' : s'.count ≠ 0 := hcount ▸ h0
  refine ⟨compressBody s, compressBody s', exec_compress_of_ready h0 hr, exec_compress_of_ready h0' hr', ?_⟩
  rw [compressBody_column h0 hr ha hm, compressBody_column h0' hr' ha' hm', hcount, hcol, chainBlocks_congr hbytes]

/-! ### Two commands in a row (R156) -/

/-- A piece of a range that is ready is ready, where it starts at a multiple of 32. -/
theorem RangeReady.piece {map : List Region} {a n : Nat} {w : Bool} (h : RangeReady map a n w) {d n' : Nat}
    (hd : d % 32 = 0) (hn : d + n' ≤ n) : RangeReady map (a + d) n' w where
  aligned := by have := h.aligned; omega
  inside := by have := h.inside; omega
  covered := fun x h1 h2 => h.covered x (by omega) (by omega)

/-- `s` with the length of the first of two commands. -/
def firstPart (s : State) (n1 : BitVec 64) : State := { s with count := n1 }

/-- The state in which the second command starts: after the first, the host has written the length of the second and
moved the stream pointers past the first `n1` blocks (R156). -/
def secondPart (s : State) (n1 n2 : BitVec 64) : State :=
  { compressBody (firstPart s n1) with
    count := n2
    sp := Oct.ofFn fun k => (compressBody (firstPart s n1)).sp.get k + BitVec.ofNat 64 (64 * n1.toNat) }

/-- The first command keeps the operands, and the host does not write `BASE`. -/
theorem secondPart_base (s : State) (n1 n2 : BitVec 64) : (secondPart s n1 n2).base = s.base :=
  (commandBody_keeps .compress (firstPart s n1)).1.base

theorem secondPart_map (s : State) (n1 n2 : BitVec 64) : (secondPart s n1 n2).map = s.map :=
  (commandBody_keeps .compress (firstPart s n1)).1.map

theorem secondPart_sp (s : State) (n1 n2 : BitVec 64) (k : Fin 8) :
    (secondPart s n1 n2).sp.get k = s.sp.get k + BitVec.ofNat 64 (64 * n1.toNat) := by
  have hsp : (compressBody (firstPart s n1)).sp = s.sp := (commandBody_keeps .compress (firstPart s n1)).1.sp
  rw [secondPart, Oct.get_ofFn, hsp]

section Chain

variable {s : State} {n1 n2 : BitVec 64} (hn : s.count.toNat = n1.toNat + n2.toNat)
include hn

theorem compressReady_firstPart (hr : CompressReady s) : CompressReady (firstPart s n1) where
  matrix := hr.matrix
  streams := fun k => (hr.streams k).piece (d := 0) rfl (show 0 + 64 * n1.toNat ≤ 64 * s.count.toNat by omega)

theorem streamsApart_firstPart (ha : StreamsApart s) : StreamsApart (firstPart s n1) := fun k =>
  (ha k).imp_right fun h => (show (s.sp.get k).toNat + 64 * n1.toNat ≤ s.base.toNat by omega)

variable (h2 : n2.toNat ≠ 0) (hr : CompressReady s)
include h2 hr

/-- The stream pointers do not wrap, since a second part is left (R23, R156). -/
theorem secondPart_sp_toNat (k : Fin 8) :
    ((secondPart s n1 n2).sp.get k).toNat = (s.sp.get k).toNat + 64 * n1.toNat := by
  have hi := (hr.streams k).inside
  rw [secondPart_sp, BitVec.toNat_add, BitVec.toNat_ofNat]
  omega

theorem compressReady_secondPart : CompressReady (secondPart s n1 n2) where
  matrix := by rw [secondPart_map, secondPart_base]; exact hr.matrix
  streams := fun k => by
    rw [secondPart_map, secondPart_sp_toNat hn h2 hr]
    exact (hr.streams k).piece (by omega) (show 64 * n1.toNat + 64 * n2.toNat ≤ 64 * s.count.toNat by omega)

/-- The two commands write the State matrix alone (R47). -/
theorem compressBody_secondPart_frame (hm : Memory.wf s.mem = true) :
    Memory.wf (compressBody (secondPart s n1 n2)).mem = true ∧
      MemSameOutside s (compressBody (secondPart s n1 n2)) s.base.toNat 256 := by
  obtain ⟨hw1, first⟩ := (compressReady_firstPart hn hr).mem_frame hm
  obtain ⟨hw2, second⟩ := (compressReady_secondPart hn h2 hr).mem_frame hw1
  rw [secondPart_base] at second
  exact ⟨hw2, fun x hx => (second x hx).trans (first x hx)⟩

variable (ha : StreamsApart s) (hm : Memory.wf s.mem = true)
include ha

theorem streamsApart_secondPart : StreamsApart (secondPart s n1 n2) := by
  intro k
  have apart := ha k
  have hcount : (secondPart s n1 n2).count = n2 := rfl
  rw [secondPart_sp_toNat hn h2 hr, secondPart_base, hcount]
  omega

include hm

/-- The second command finds the blocks after the first `n1` in every stream, since the first wrote none of them. -/
theorem streamBytes_secondPart (k : Fin 8) {j : Nat} (hj : j < 64 * n2.toNat) :
    streamBytes (secondPart s n1 n2) k j = streamBytes s k (64 * n1.toNat + j) := by
  have apart := ha k
  rw [streamBytes, secondPart_sp_toNat hn h2 hr, streamBytes, ← Nat.add_assoc]
  exact ((compressReady_firstPart hn hr).mem_frame hm).2 _
    (show _ < s.base.toNat ∨ s.base.toNat + 256 ≤ _ by omega)

variable (h1 : n1.toNat ≠ 0)
include h1

/-- In every lane the two commands chain the scalar function over the blocks of both (R153, R156). -/
theorem compressBody_secondPart_column (k : Fin 8) :
    stateColumn (compressBody (secondPart s n1 n2)).mem s.base.toNat k =
      chainBlocks s.count.toNat (stateColumn s.mem s.base.toNat k) (streamBytes s k) := by
  have hr1 := compressReady_firstPart hn hr
  have hr2 := compressReady_secondPart hn h2 hr
  have first := compressBody_column (count_ne_zero h1) hr1 (streamsApart_firstPart hn ha) hm k
  have second := compressBody_column (count_ne_zero h2) hr2 (streamsApart_secondPart hn h2 hr ha)
    (hr1.mem_frame hm).1 k
  rw [secondPart_base] at second
  calc stateColumn (compressBody (secondPart s n1 n2)).mem s.base.toNat k
      = chainBlocks n2.toNat (stateColumn (compressBody (firstPart s n1)).mem s.base.toNat k)
          (streamBytes (secondPart s n1 n2) k) := second
    _ = chainBlocks n2.toNat (chainBlocks n1.toNat (stateColumn s.mem s.base.toNat k) (streamBytes s k))
          fun j => streamBytes s k (64 * n1.toNat + j) := by
        rw [chainBlocks_congr fun _ hj => streamBytes_secondPart hn h2 hr ha hm k hj]
        exact congrArg (chainBlocks n2.toNat · _) first
    _ = chainBlocks s.count.toNat (stateColumn s.mem s.base.toNat k) (streamBytes s k) := by
        rw [hn, chainBlocks_add]

/-- So they leave the memory that one command over all the blocks leaves (R156). -/
theorem compressBody_secondPart_mem : (compressBody (secondPart s n1 n2)).mem = (compressBody s).mem := by
  have h0 : s.count ≠ 0 := count_ne_zero (by omega)
  obtain ⟨hw, one⟩ := hr.mem_frame hm
  obtain ⟨hw', two⟩ := compressBody_secondPart_frame hn h2 hr hm
  refine memory_ext hw' hw fun x => ?_
  by_cases hx : s.base.toNat ≤ x ∧ x < s.base.toNat + 256
  · refine readByte_eq_of_readMat (readMat_eq_of_columns fun k => ?_) hx.1 hx.2
    rw [compressBody_secondPart_column hn h2 hr ha hm h1, compressBody_column h0 hr ha hm]
  · rw [two x (by omega), one x (by omega)]

end Chain

/-- Settles O44: both commands are ready where the one is, and in every lane they chain the same blocks. -/
theorem twoCommandsChainLikeOne : Obligations.TwoCommandsChainLikeOne := by
  intro s n1 n2 h1 h2 hn hr ha hm
  have h0 : s.count ≠ 0 := count_ne_zero (by omega)
  have hr1 := compressReady_firstPart hn hr
  have hr2 := compressReady_secondPart hn h2 hr
  exact ⟨compressBody s, compressBody (firstPart s n1), compressBody (secondPart s n1 n2),
    exec_compress_of_ready h0 hr, exec_compress_of_ready (count_ne_zero h1) hr1,
    exec_compress_of_ready (count_ne_zero h2) hr2, compressBody_secondPart_mem hn h2 hr ha hm h1,
    (commandBody_keeps .compress _).2, (commandBody_keeps .compress _).2⟩

/-! ### The order of the accesses (R158) -/

/-- Settles O45: a COMPRESS that is ready has its effect, and the events are those of its blocks. -/
theorem compressAccessOrder : Obligations.CompressAccessOrder := fun s hn hr =>
  ⟨compressBody s, exec_compress_of_ready (count_ne_zero hn) hr, events_compressBody fun _ k => (hr.streams k).inside⟩

end Sys2Proof.Machine

/-! ## The family `60_exceptions.md`: the word that is no command, the cause that is NORMALIZE's alone, and what a fault
leaves as it was -/

namespace Sys2Proof.Machine

/-- A word that encodes no command is issued as the fault `ILLEGAL_CMD` (R74, R172). -/
theorem issue_of_no_command {run : Instr → State → Host.Outcome State Fault Refusal} {cw : Word}
    (h : ∀ i, cw ≠ encode i) (s : State) :
    issue run cw s = .next (raise .illegalCmd (cw.setWidth 64) (beginCommand cw s)) := by
  rcases issue_cases run cw s with ⟨i, hd, -⟩ | e
  · exact absurd ((decodeAndEncodeAgree cw i).1 hd) (h i)
  · exact e

/-- Settles O4: the three words left out are the three encodings, and the fault writes the report over the state in which
the word was stored. -/
theorem illegalCommandFaults : Obligations.IllegalCommandFaults := by
  intro s rest cw h1 h2 h3
  have hne (i : Instr) : cw ≠ encode i := by
    cases i with
    | normalize => exact h1
    | transpose => exact h2
    | compress => exact h3
  exact ⟨_, (step_cmd rfl).trans (issue_of_no_command hne _),
    rfl, rfl, rfl, rfl, rfl, rfl, rfl, rfl, rfl, rfl, rfl, rfl⟩

/-- No other cause of a fault has the code of `BAD_LENGTH` (R171). -/
theorem statusOfFault_eq_badLength_iff {f : CmdFault} : statusOfFault f = 0x00000022 ↔ f = .badLength := by
  cases f <;> decide

/-- Settles O28: a fault is `BAD_LENGTH` when the first check failed, which only NORMALIZE has; a command that passed its
checks has a legal length and reports success. -/
theorem badLengthIsNormalizeAlone : Obligations.BadLengthIsNormalizeAlone := by
  intro i s t h
  rw [← lengthLegal_eq_false]
  rcases exec_next h with ⟨f, info, hc, rfl⟩ | ⟨hc, -, rfl⟩
  · obtain ⟨-, hiff, hinfo⟩ := check_code hc
    rw [raise_status, statusOfFault_eq_badLength_iff]
    exact ⟨hiff, hinfo⟩
  · have hst : (commandBody i s).status ≠ 0x00000022 := by rw [(commandBody_keeps i s).2.status]; decide
    have hlegal : ¬ (i = .normalize ∧ lengthLegal s = false) := fun ⟨hi, hl⟩ => by
      rw [(check_eq_none.1 hc).1 hi] at hl
      cases hl
    exact ⟨iff_of_false hst hlegal, fun e => absurd e hst⟩

/-- Settles O29: a fault's state is the one raised, and a command's own effect ends with `ERR` clear. -/
theorem faultsArePrecise : Obligations.FaultsArePrecise := by
  intro i s t h herr
  rcases exec_next h with ⟨f, info, -, rfl⟩ | ⟨-, -, rfl⟩
  · rfl
  · rw [(commandBody_keeps i s).2.status] at herr
    exact absurd herr (by decide)

end Sys2Proof.Machine

/-! ## The family `70_reset_and_hazards.md`: the reset event while the block is idle and in the middle of a command -/

namespace Sys2Proof.Machine

/-! ### The reset event (R190, R191) -/

/-- Settles O52: the reset event is `resetBlock`, whatever the operand registers hold. -/
theorem resetEventClearsTheReport : Obligations.ResetEventClearsTheReport := fun s rest =>
  ⟨resetBlock { s with host := rest }, step_reset rfl, rfl, rfl, rfl, rfl, rfl, rfl, rfl⟩

/-! ### A reset in the middle of a command (R192) -/

section
variable {s : State} {cw : Word} {i : Instr}

/-- A command that a reset cuts short, as a step (R192). -/
theorem step_resetDuring {rest : List Transaction} (h : s.host = .resetDuring cw :: rest) :
    step s = resetDuringCommand cw { s with host := rest } := by
  rw [step_hostTurn h, hostTurn]

/-- A command whose own effect is what `exec` answers passed its checks, over ordinary memory: a fault would have set
`ERR`. -/
theorem passes_of_exec_commandBody (h : exec i s = .next (commandBody i s)) :
    check i s = none ∧ (footprint i s).any (touchesDevice s.map) = false := by
  rcases exec_next h with ⟨f, info, -, hraise⟩ | ⟨hc, hd, -⟩
  · have herr : statusErr (commandBody i s).status = true := by rw [hraise, raise_status, statusErr_statusOfFault]
    rw [(commandBody_keeps i s).2.status] at herr
    exact absurd herr (by decide)
  · exact ⟨hc, hd⟩

/-- Where no command passes its checks there is nothing to abandon: the reset is the reset event (R179). -/
theorem resetDuringCommand_of_no_pass (h : ∀ i, decode cw = .ok i → check i s ≠ none) :
    resetDuringCommand cw s = .next (resetBlock s) := by
  rcases resetDuringCommand_cases cw s with ⟨-, e⟩ | ⟨i, hi, hc, -, -⟩ | ⟨i, hi, hc, -, -⟩
  · exact e
  · exact absurd hc (h i hi)
  · exact absurd hc (h i hi)

/-- A command on ordinary memory is abandoned, the bytes of its write footprint unspecified (R192). -/
theorem resetDuringCommand_of_pass (hi : decode cw = .ok i) (hc : check i s = none)
    (hd : (footprint i s).any (touchesDevice s.map) = false) : resetDuringCommand cw s =
      .next (resetBlock { s with mem := scrambleWritten s.draws (footprint i s) s.mem }) := by
  simp [resetDuringCommand, hi, hc, hd]

/-- A footprint that is not ordinary memory is refused here too (R51). -/
theorem resetDuringCommand_of_device (hi : decode cw = .ok i) (hc : check i s = none)
    (hd : (footprint i s).any (touchesDevice s.map) = true) : resetDuringCommand cw s = .refused .deviceFootprint := by
  simp [resetDuringCommand, hi, hc, hd]

/-- A COMPRESS of no blocks writes no range, so none is left unspecified (R141). -/
theorem scrambleWritten_compress_zero (h : s.count = 0) (d : Nat) (m : Memory) :
    scrambleWritten d (footprint .compress s) m = m := by
  rw [scrambleWritten_footprint, writtenBytes, if_pos h, scrambleBytes]

/-- A word other than the three encodings decodes to no command (R74). -/
theorem decode_ne_ok (h1 : cw ≠ encode .normalize) (h2 : cw ≠ encode .transpose) (h3 : cw ≠ encode .compress)
    (i : Instr) : decode cw ≠ .ok i := fun h => by
  have hcw := (decodeAndEncodeAgree cw i).1 h
  cases i with
  | normalize => exact h1 hcw
  | transpose => exact h2 hcw
  | compress => exact h3 hcw

end

/-- Settles O53: every reset that is not refused is `resetBlock` over a memory in canonical form, which is the old one
unless a command that passed its checks was abandoned. -/
theorem resetDuringACommand : Obligations.ResetDuringACommand := by
  intro s rest cw hm out emptied
  have hout : out = resetDuringCommand cw { s with host := rest } := step_resetDuring rfl
  have hemptied {m : Memory} (hw : Memory.wf m = true) : emptied (resetBlock { s with host := rest, mem := m }) :=
    ⟨rfl, rfl, rfl, rfl, rfl, rfl, rfl, hw⟩
  have kept (h : ∀ i, decode cw = .ok i → check i s ≠ none) : ∃ t, out = .next t ∧ emptied t ∧ t.mem = s.mem :=
    ⟨_, hout.trans (resetDuringCommand_of_no_pass h), hemptied hm, rfl⟩
  have abandoned {i : Instr} (hi : decode cw = .ok i) (hx : exec i s = .next (commandBody i s)) :
      check i s = none ∧ out = .next (resetBlock
        { s with host := rest, mem := scrambleWritten s.draws (footprint i s) s.mem }) := by
    obtain ⟨hc, hd⟩ := passes_of_exec_commandBody hx
    exact ⟨hc, hout.trans (resetDuringCommand_of_pass (s := { s with host := rest }) hi hc hd)⟩
  refine ⟨fun i hi hr => ?ready, fun hi h0 => ?noBlocks, fun i hi hc => kept fun j hj => ?failed,
    fun h1 h2 h3 => kept fun i hi => absurd hi (decode_ne_ok h1 h2 h3 i), fun i hi hc hd => ?device⟩
  case ready =>
    have hx : exec i s = .next (commandBody i s) := by
      cases i with
      | normalize => exact exec_normalize_of_ready hr
      | transpose => exact exec_transpose_of_ready hr
      | compress => exact exec_compress_of_ready (count_ne_zero hr.1) hr.2
    obtain ⟨hc, e⟩ := abandoned hi hx
    obtain ⟨hw, hframe⟩ := scrambleWritten_frame s.draws hm hc
    exact ⟨_, e, hemptied hw, hframe⟩
  case noBlocks =>
    have hz : s.count = 0 := BitVec.eq_of_toNat_eq h0
    have hx : exec .compress s = .next (compressBody s) := (exec_compress_zero hz).trans (by rw [compressBody_zero hz])
    obtain ⟨-, e⟩ := abandoned hi hx
    rw [scrambleWritten_compress_zero hz] at e
    exact ⟨_, e, hemptied hm, rfl⟩
  case failed =>
    obtain rfl := Except.ok.inj (hi.symm.trans hj)
    exact hc
  case device =>
    exact hout.trans (resetDuringCommand_of_device hi hc (any_touchesDevice.2 hd))

end Sys2Proof.Machine
